-- ==== Sys2Proof/Word.lean ====
section
/-! DEFINITION. The words of the block: a frame and a result (32 bits), the command word (53 bits), the
transmission word (34 bits). Rules R70, R74, R79, R81 of spec/30_encoding.md. -/

namespace Sys2Proof

/-- The 32-bit word of the result port (R81). -/
abbrev Word := BitVec 32

/-- A frame: "an opaque 32-bit unsigned value with a fixed bit layout" (R70). -/
abbrev Frame := BitVec 32

/-- The 53-bit command word on the `cmd` port (R79). -/
abbrev CmdWord := BitVec 53

/-- The 34 symbols of a transmission, the first symbol in bit 33 (R74). -/
abbrev TxWord := BitVec 34

end Sys2Proof
end

