-- ==== Sys2Proof/Config.lean ====
section
/-! DEFINITION. What an implementation fixes: the constants of R7, the parameters of R8 (spec/00_scope.md), the
enumerations they are written in, and the model's one free value. -/

namespace Sys2Proof

/-- A line level: one of two abstract values (R14). -/
inductive Level where
  | idle
  | active
  deriving DecidableEq, Repr

/-- The channel's fixed direction (R8 `ROLE`, R25). -/
inductive Role where
  | master
  | slave
  deriving DecidableEq, Repr

/-- `RX_VALIDATOR_MAP` (R8, R177): which validity predicate `TICK` applies to a received frame. -/
inductive RxValidatorMap where
  | directional
  | literal44
  deriving DecidableEq, Repr

/-- An electrical level of a pin, the values of `ACTIVE_LEVEL` (R8). -/
inductive PinLevel where
  | low
  | high
  deriving DecidableEq, Repr

/-- `TEMP_IN` (R8, D19, D35): how the operand of `TEMPERATURE_TO_DATA` is carried on `A`. `fixed n` is signed
two's-complement fixed point with `n` fraction bits; the default is `fixed 16`, Q16.16.
DESIGN CHOICE (log 9): no floating-point format. -/
inductive TempIn where
  | fixed (fractionBits : Nat)
  deriving DecidableEq, Repr

/-- The parameters of R8 that are single values. No event writes them. -/
structure Params where
  /-- `TS_WIDTH`: width in bits of the clock input and of the stored times. -/
  tsWidth     : Nat
  /-- `RX_VALIDATOR_MAP`. -/
  rxMap       : RxValidatorMap
  /-- `TEMP_IN`. -/
  tempIn      : TempIn
  /-- `ACTIVE_LEVEL`: the pin level that `ACTIVE` stands for. -/
  activeLevel : PinLevel
  /-- U17 of 93_implementation_defined.md: every transition of `line_out` is also an `EDGE` at the same `now`. -/
  coupled     : Bool
  deriving DecidableEq, Repr

/-- The defaults of R8 and U17. `ACTIVE_LEVEL` is OPEN in R8: DESIGN CHOICE `HIGH` (log 3). -/
def Params.default : Params :=
  { tsWidth := 32, rxMap := .directional, tempIn := .fixed 16, activeLevel := .high, coupled := false }

namespace Config

/-- `T_HALF` (R7): each half of a line symbol, in µs. -/
def tHalf : Nat := 500

/-- `T_MID` (R7): the receive threshold. -/
def tMid : Nat := 750

/-- `T_TIMEOUT` (R7): the tick timeout. -/
def tTimeout : Nat := 1000000

/-- `T_DELAY` (R7): the inter-frame quiet period. -/
def tDelay : Nat := 100000

/-- `T_COLD` (R7): the cold-start idle hold. -/
def tCold : Nat := 1000000

/-- `T_FRAME` (R7): 34 symbols of two halves each. -/
def tFrame : Nat := 34000

/-- `N_BITS` (R7): payload bits per frame. -/
def nBits : Nat := 32

/-- FREE VALUE (log 8). `POLL_SCHEDULE` (R8) is "any strictly increasing sequence of `TICK` times": beyond the
scheduled ticks that the state lists, tick number `n` of the sequencer comes `1 + pollGap n` µs after the one before. -/
opaque pollGap : Nat → Nat

end Config

end Sys2Proof
end

