-- ==== Sys2Proof/Syntax.lean ====
section
/-! DEFINITION. The instructions: one constructor per row of spec/opcode_table.json. Operands are already the fields
of the command word (R79); ignored fields are not kept. `Packet` is what arrives at the block: a word at one of its
inputs. -/

namespace Sys2Proof

/-- Message types (R71, table of codes). -/
inductive MsgType where
  | readData
  | writeData
  | invalidData
  | reserved
  | readAck
  | writeAck
  | dataInvalid
  | unknownDataId
  deriving DecidableEq, Repr

/-- The operations and events of the block. -/
inductive Instr where
  -- Frame Codec, R101 to R114
  | parity (frame : Frame)
  | buildRequest (type : MsgType) (id : BitVec 8) (data : BitVec 16)
  | buildResponse (type : MsgType) (id : BitVec 8) (data : BitVec 16)
  | getMessageType (frame : Frame)
  | getDataId (frame : Frame)
  | getUInt16 (frame : Frame)
  | getInt16 (frame : Frame)
  | getFloat (frame : Frame)
  | getUbUInt8 (frame : Frame)
  | getLbUInt8 (frame : Frame)
  | temperatureToData (a : Word)
  | isValidRequest (frame : Frame)
  | isValidResponse (frame : Frame)
  | modifyMsgData (frame : Frame) (newData : BitVec 16)
  -- Channel Controller, R171 to R184
  | initChannel
  | tick
  | sendRequestAsync (frame : Frame)
  | sendRequest (frame : Frame)
  | sendResponse (frame : Frame)
  | isReady
  | getLastResponseStatus
  -- reserved command codes, R85
  | reservedCmd0E
  | reservedCmd0F
  | reservedCmd17
  | reservedCmd18
  | reservedCmd19
  | reservedCmd1A
  | reservedCmd1B
  | reservedCmd1C
  | reservedCmd1D
  | reservedCmd1E
  | reservedCmd1F
  -- what is on the line: frames by message type (R71), symbols (R73), the transmission word (R74)
  | frameReadData (frame : Frame)
  | frameWriteData (frame : Frame)
  | frameInvalidData (frame : Frame)
  | frameReserved (frame : Frame)
  | frameReadAck (frame : Frame)
  | frameWriteAck (frame : Frame)
  | frameDataInvalid (frame : Frame)
  | frameUnknownDataId (frame : Frame)
  | symbolBit1
  | symbolBit0
  | txWord (word : TxWord)
  -- events that are not commands, R82
  | edge (level : Level)
  | reset
  | txStep
  | txEnd
  | initBegin
  | initEnd
  deriving DecidableEq, Repr

/-- Where a word arrives. `cmd` is the command port (R79); `frame`, `symbol` and `txWord` are the formats of the line
(R70, R73, R74); the rest are the signals of R82, which "have no code on the command port". -/
inductive Wire where
  | cmd
  | frame
  | symbol
  | txWord
  | edge
  | rst
  | txStep
  | txEnd
  | initBegin
  | initEnd
  deriving DecidableEq, Repr

/-- The bits each wire carries: the `width` column of opcode_table.json. -/
def Wire.width : Wire → Nat
  | .cmd => 53
  | .frame => 32
  | .symbol => 2
  | .txWord => 34
  | .edge => 1
  | .rst => 0
  | .txStep => 0
  | .txEnd => 0
  | .initBegin => 0
  | .initEnd => 0

/-- A word at a wire, bit 0 the least significant; 53 bits hold the widest of them. -/
structure Packet where
  wire : Wire
  bits : CmdWord
  deriving DecidableEq, Repr

end Sys2Proof
end

