-- ==== Sys2Proof/WellFormed.lean ====
section
/-! DEFINITION. The checks the types of `Instr` do not make: a frame row holds a frame of its own message type (R71),
and a transmission word begins and ends with a symbol 1 (R74). -/

namespace Sys2Proof

/-- The `MSG_TYPE` field of a frame is the given code (R70: bits 30 to 28). -/
def hasTypeCode (f : Frame) (code : BitVec 3) : Bool := f.extractLsb' 28 3 == code

/-- The start and the stop symbol of a transmission word are 1 (R74). -/
def isFramed (w : TxWord) : Bool := w.getLsbD 33 && w.getLsbD 0

/-- Well-formed instructions: every operand is one that an encoding of the table can carry. -/
def Instr.wellFormed : Instr → Bool
  | .frameReadData f => hasTypeCode f 0
  | .frameWriteData f => hasTypeCode f 1
  | .frameInvalidData f => hasTypeCode f 2
  | .frameReserved f => hasTypeCode f 3
  | .frameReadAck f => hasTypeCode f 4
  | .frameWriteAck f => hasTypeCode f 5
  | .frameDataInvalid f => hasTypeCode f 6
  | .frameUnknownDataId f => hasTypeCode f 7
  | .txWord w => isFramed w
  | .parity _ | .buildRequest _ _ _ | .buildResponse _ _ _ | .getMessageType _ | .getDataId _ | .getUInt16 _
  | .getInt16 _ | .getFloat _ | .getUbUInt8 _ | .getLbUInt8 _ | .temperatureToData _ | .isValidRequest _
  | .isValidResponse _ | .modifyMsgData _ _ | .initChannel | .tick | .sendRequestAsync _ | .sendRequest _
  | .sendResponse _ | .isReady | .getLastResponseStatus | .reservedCmd0E | .reservedCmd0F | .reservedCmd17
  | .reservedCmd18 | .reservedCmd19 | .reservedCmd1A | .reservedCmd1B | .reservedCmd1C | .reservedCmd1D
  | .reservedCmd1E | .reservedCmd1F | .symbolBit1 | .symbolBit0 | .edge _ | .reset | .txStep | .txEnd
  | .initBegin | .initEnd => true

end Sys2Proof
end

