-- ==== Sys2Proof/Decode.lean ====
section
/-! DEFINITION. The decoder, from a word at a wire to an instruction, total, rejecting by name; then the encoder,
from the same tables: R79 and R80 (command word), R71 (frames), R73 (symbols), R74 (transmission word), R82 (events). -/

namespace Sys2Proof

/-- Why a packet is no encoding of the table. -/
inductive DecodeError where
  /-- Bits are set above the wire's width. -/
  | tooWide
  /-- Two halves of equal level: R73 gives a symbol a transition in its middle. -/
  | noSymbol
  /-- The start or the stop symbol is not 1 (R74). -/
  | notFramed
  deriving DecidableEq, Repr

/-! ## Message-type and level codes -/

/-- The code of a message type (R71). -/
def MsgType.code : MsgType → BitVec 3
  | .readData => 0
  | .writeData => 1
  | .invalidData => 2
  | .reserved => 3
  | .readAck => 4
  | .writeAck => 5
  | .dataInvalid => 6
  | .unknownDataId => 7

/-- The message type of a code (R71): all eight codes are named. -/
def MsgType.ofCode (c : BitVec 3) : MsgType :=
  match c.toNat with
  | 0 => .readData
  | 1 => .writeData
  | 2 => .invalidData
  | 3 => .reserved
  | 4 => .readAck
  | 5 => .writeAck
  | 6 => .dataInvalid
  | _ => .unknownDataId

/-- A level as a bit: `ACTIVE` is 1 and `IDLE` is 0 (R14, R75). -/
def Level.toBool : Level → Bool
  | .idle => false
  | .active => true

/-- The level of a bit (R14). -/
def Level.ofBool : Bool → Level
  | false => .idle
  | true => .active

/-! ## Fields of the command word (R79) -/

/-- `OP`, bits 52 to 48. -/
def cmdOp (w : CmdWord) : BitVec 5 := w.extractLsb' 48 5

/-- `B`, bits 47 to 32. -/
def cmdB (w : CmdWord) : BitVec 16 := w.extractLsb' 32 16

/-- `A`, bits 31 to 0. -/
def cmdA (w : CmdWord) : Word := w.extractLsb' 0 32

/-- Form (b) of `A`: the type in `A[30:28]`. -/
def fieldType (a : Word) : MsgType := MsgType.ofCode (a.extractLsb' 28 3)

/-- Form (b) of `A`: the data-ID in `A[23:16]`. -/
def fieldId (a : Word) : BitVec 8 := a.extractLsb' 16 8

/-- Form (b) of `A`: the data value in `A[15:0]`. -/
def fieldData (a : Word) : BitVec 16 := a.extractLsb' 0 16

/-! ## The decoder -/

/-- A command word (R80). Every word has a meaning or is a reserved code; fields the command does not use are
ignored, "whatever it holds" (R79). -/
def decodeCommand (w : CmdWord) : Instr :=
  let a := cmdA w
  match (cmdOp w).toNat with
  | 0x00 => .parity a
  | 0x01 => .buildRequest (fieldType a) (fieldId a) (fieldData a)
  | 0x02 => .buildResponse (fieldType a) (fieldId a) (fieldData a)
  | 0x03 => .getMessageType a
  | 0x04 => .getDataId a
  | 0x05 => .getUInt16 a
  | 0x06 => .getInt16 a
  | 0x07 => .getFloat a
  | 0x08 => .getUbUInt8 a
  | 0x09 => .getLbUInt8 a
  | 0x0A => .temperatureToData a
  | 0x0B => .isValidRequest a
  | 0x0C => .isValidResponse a
  | 0x0D => .modifyMsgData a (cmdB w)
  | 0x0E => .reservedCmd0E
  | 0x0F => .reservedCmd0F
  | 0x10 => .initChannel
  | 0x11 => .tick
  | 0x12 => .sendRequestAsync a
  | 0x13 => .sendRequest a
  | 0x14 => .sendResponse a
  | 0x15 => .isReady
  | 0x16 => .getLastResponseStatus
  | 0x17 => .reservedCmd17
  | 0x18 => .reservedCmd18
  | 0x19 => .reservedCmd19
  | 0x1A => .reservedCmd1A
  | 0x1B => .reservedCmd1B
  | 0x1C => .reservedCmd1C
  | 0x1D => .reservedCmd1D
  | 0x1E => .reservedCmd1E
  | _ => .reservedCmd1F

/-- A frame, by its message type (R71). -/
def decodeFrame (f : Frame) : Instr :=
  match fieldType f with
  | .readData => .frameReadData f
  | .writeData => .frameWriteData f
  | .invalidData => .frameInvalidData f
  | .reserved => .frameReserved f
  | .readAck => .frameReadAck f
  | .writeAck => .frameWriteAck f
  | .dataInvalid => .frameDataInvalid f
  | .unknownDataId => .frameUnknownDataId f

/-- A line symbol: symbol 1 is `10`, symbol 0 is `01` (R73). -/
def decodeSymbol (v : BitVec 2) : Except DecodeError Instr :=
  match v.toNat with
  | 1 => .ok .symbolBit0
  | 2 => .ok .symbolBit1
  | _ => .error .noSymbol

/-- A transmission word (R74). -/
def decodeTxWord (w : TxWord) : Except DecodeError Instr :=
  if isFramed w then .ok (.txWord w) else .error .notFramed

/-- The instruction of a word at a wire. -/
def decode (p : Packet) : Except DecodeError Instr :=
  if 2 ^ p.wire.width ≤ p.bits.toNat then .error .tooWide
  else
    match p.wire with
    | .cmd => .ok (decodeCommand p.bits)
    | .frame => .ok (decodeFrame (p.bits.setWidth 32))
    | .symbol => decodeSymbol (p.bits.setWidth 2)
    | .txWord => decodeTxWord (p.bits.setWidth 34)
    | .edge => .ok (.edge (Level.ofBool (p.bits.getLsbD 0)))
    | .rst => .ok .reset
    | .txStep => .ok .txStep
    | .txEnd => .ok .txEnd
    | .initBegin => .ok .initBegin
    | .initEnd => .ok .initEnd

/-! ## The encoder -/

/-- The command word `{OP, B, A}` (R79). -/
def cmdWord (op : BitVec 5) (b : BitVec 16) (a : Word) : CmdWord := op ++ b ++ a

/-- Form (b) of `A` (R79), the ignored bits 0. -/
def buildFields (t : MsgType) (id : BitVec 8) (data : BitVec 16) : Word :=
  (0 : BitVec 1) ++ t.code ++ (0 : BitVec 4) ++ id ++ data

/-- A command with its operands as a packet. -/
def cmdPacket (op : BitVec 5) (b : BitVec 16) (a : Word) : Packet := ⟨.cmd, cmdWord op b a⟩

/-- A frame on the line as a packet. -/
def framePacket (f : Frame) : Packet := ⟨.frame, f.setWidth 53⟩

/-- The packet of an instruction; ignored fields are 0. -/
def encode : Instr → Packet
  | .parity f => cmdPacket 0x00 0 f
  | .buildRequest t i d => cmdPacket 0x01 0 (buildFields t i d)
  | .buildResponse t i d => cmdPacket 0x02 0 (buildFields t i d)
  | .getMessageType f => cmdPacket 0x03 0 f
  | .getDataId f => cmdPacket 0x04 0 f
  | .getUInt16 f => cmdPacket 0x05 0 f
  | .getInt16 f => cmdPacket 0x06 0 f
  | .getFloat f => cmdPacket 0x07 0 f
  | .getUbUInt8 f => cmdPacket 0x08 0 f
  | .getLbUInt8 f => cmdPacket 0x09 0 f
  | .temperatureToData a => cmdPacket 0x0A 0 a
  | .isValidRequest f => cmdPacket 0x0B 0 f
  | .isValidResponse f => cmdPacket 0x0C 0 f
  | .modifyMsgData f d => cmdPacket 0x0D d f
  | .reservedCmd0E => cmdPacket 0x0E 0 0
  | .reservedCmd0F => cmdPacket 0x0F 0 0
  | .initChannel => cmdPacket 0x10 0 0
  | .tick => cmdPacket 0x11 0 0
  | .sendRequestAsync f => cmdPacket 0x12 0 f
  | .sendRequest f => cmdPacket 0x13 0 f
  | .sendResponse f => cmdPacket 0x14 0 f
  | .isReady => cmdPacket 0x15 0 0
  | .getLastResponseStatus => cmdPacket 0x16 0 0
  | .reservedCmd17 => cmdPacket 0x17 0 0
  | .reservedCmd18 => cmdPacket 0x18 0 0
  | .reservedCmd19 => cmdPacket 0x19 0 0
  | .reservedCmd1A => cmdPacket 0x1A 0 0
  | .reservedCmd1B => cmdPacket 0x1B 0 0
  | .reservedCmd1C => cmdPacket 0x1C 0 0
  | .reservedCmd1D => cmdPacket 0x1D 0 0
  | .reservedCmd1E => cmdPacket 0x1E 0 0
  | .reservedCmd1F => cmdPacket 0x1F 0 0
  | .frameReadData f => framePacket f
  | .frameWriteData f => framePacket f
  | .frameInvalidData f => framePacket f
  | .frameReserved f => framePacket f
  | .frameReadAck f => framePacket f
  | .frameWriteAck f => framePacket f
  | .frameDataInvalid f => framePacket f
  | .frameUnknownDataId f => framePacket f
  | .symbolBit1 => ⟨.symbol, 2⟩
  | .symbolBit0 => ⟨.symbol, 1⟩
  | .txWord w => ⟨.txWord, w.setWidth 53⟩
  | .edge l => ⟨.edge, if l.toBool then 1 else 0⟩
  | .reset => ⟨.rst, 0⟩
  | .txStep => ⟨.txStep, 0⟩
  | .txEnd => ⟨.txEnd, 0⟩
  | .initBegin => ⟨.initBegin, 0⟩
  | .initEnd => ⟨.initEnd, 0⟩

/-! ## Words as spec/opcode_table.json lists them -/

/-- The wire whose format the table's row of `nbits` bits has. A row is as wide as its format; rounded up to whole
bytes, the 1-bit `EDGE` row and the 2-bit symbol rows are both one byte, and there 1 and 2 are symbols and 0 is
`EDGE` (log 19). Of the rows of no bits only `RESET` enters from outside, by the reset pin (R82, log 19). -/
def tableWire (nbits w : Nat) : Option Wire :=
  if nbits = 0 then some .rst
  else if nbits = 1 then some .edge
  else if nbits ≤ 8 then (if w = 0 then some .edge else some .symbol)
  else if nbits = 32 then some .frame
  else if 34 ≤ nbits ∧ nbits ≤ 40 then some .txWord
  else if 53 ≤ nbits ∧ nbits ≤ 56 then some .cmd
  else none

/-- The packet of a table word. -/
def tablePacket (nbits w : Nat) : Option Packet :=
  if w < 2 ^ 53 then (tableWire nbits w).map (fun k => ⟨k, BitVec.ofNat 53 w⟩) else none

/-- The instruction the decoder reads from a table word, `none` where it refuses. -/
def decodeTableWord (nbits w : Nat) : Option Instr :=
  match tablePacket nbits w with
  | none => none
  | some p => (decode p).toOption

end Sys2Proof
end

