-- ==== Sys2Proof/Machine/State.lean ====
section
/-! DEFINITION. The state of one channel and of its environment, as plain data: the Channel State (R20 to R28), the
transmit engine (R29), the ports (R30), the parameters (R8), the environment's future (R246); its reset (R36); and
the reasons a step can stop. INVENTORY.md lists every field with its rule and its reset value. -/

namespace Sys2Proof.Machine

/-- `CS.status`, nine values (R21). -/
inductive Status where
  | uninitialized
  | ready
  | delay
  | sending
  | awaitingResponse
  | receivedStartBit
  | receiving
  | responseReady
  | responseInvalid
  deriving DecidableEq, Repr

/-- The response status, six values (R200). -/
inductive RespStatus where
  | success
  | timeout
  | invalidStart
  | invalidParity
  | invalidMessageType
  | none
  deriving DecidableEq, Repr

/-- `TX.kind`, the command that owns the engine (R29, R78). -/
inductive TxKind where
  | request
  | response
  | init
  deriving DecidableEq, Repr

/-- The Channel State and the two registers the interfaces imply (R20 to R28). -/
structure Channel where
  status             : Status
  pendingFrame       : Frame
  /-- A `TS_WIDTH`-bit unsigned number, held as a Nat below `2 ^ tsWidth` since the width is a parameter (log 2). -/
  lastEdgeTimestamp  : Nat
  receivedBitCount   : BitVec 6
  role               : Role
  lastResponseStatus : RespStatus
  edgeEnable         : Bool
  deriving DecidableEq, Repr

/-- The transmit engine's registers `TX.*` (R29). -/
structure Engine where
  busy  : Bool
  kind  : TxKind
  word  : TxWord
  phase : BitVec 7
  /-- As `lastEdgeTimestamp`, `TS_WIDTH` bits. -/
  t0    : Nat
  deriving DecidableEq, Repr

/-- What `done_frame` and `done_status` carry (R30, R213). -/
structure Completion where
  frame  : Frame
  status : RespStatus
  deriving DecidableEq, Repr

/-- The output strobes of the last event, absent where `res_valid` or `done_valid` is 0 (R30, R81, R213; log 15). -/
structure Strobes where
  res  : Option Word
  done : Option Completion
  deriving DecidableEq, Repr

/-- What can arrive on `line_in`: one transition (R150), or the waveform of a symbol, a frame or a transmission
word, given by its bits (R70, R73, R74; log 7). -/
inductive LineUnit where
  | edge (level : Level)
  | symbol (halves : BitVec 2)
  | frame (frame : Frame)
  | word (word : TxWord)
  deriving DecidableEq, Repr

/-- A line unit and the true time at which it arrives. -/
structure LineArrival where
  time : Nat
  unit : LineUnit
  deriving DecidableEq, Repr

/-- A command word and the true time from which HOST presents it. -/
structure HostCommand where
  time : Nat
  word : CmdWord
  deriving DecidableEq, Repr

/-- The environment: the clock, the inputs, and what it will do next (R9, R10, R246; log 1). The lists are ordered
by time. They are the environment's, not a queue of the block (R35). -/
structure Env where
  /-- True time in µs of the last event; the port `now` is `clock mod 2^TS_WIDTH` (R10). -/
  clock      : Nat
  lineIn     : Level
  roleStrap  : Role
  rstScript  : List Nat
  lineScript : List LineArrival
  hostScript : List HostCommand
  deriving DecidableEq, Repr

/-- The tick times of the `SEND_REQUEST` sequencer (R8 `POLL_SCHEDULE`, R181; log 8). `after` and `count` are the
model's own: the last `TX_END` or sequencer tick, and how many ticks the free value `Config.pollGap` has timed. -/
structure Poll where
  schedule : List Nat
  after    : Nat
  count    : Nat
  deriving DecidableEq, Repr

/-- Why a run stops with a fault. No constructor: "There are exactly six response-status values and no other error
reporting mechanism: no fault, no abort" (R200; log 25). -/
inductive Fault where
  deriving DecidableEq, Repr

/-- Why the model refuses. -/
inductive Refusal where
  /-- An instruction without a meaning; no arm of `exec` raises it. Safe. -/
  | notModelled (mnemonic : String)
  /-- Raised by the eleven reserved command codes: "a model refuses it" (R85). Safe. -/
  | reservedCommand (code : BitVec 5)
  /-- Raised by a command given to `exec` while `cmd_ready` is 0 (R139, R186, U10); `step` never does so. Safe. -/
  | portNotReady
  /-- Raised by an engine event given to `exec` where its rule does not enable it (R134, R135, R137); `step` never
  does so. Safe. -/
  | eventNotEnabled
  /-- Raised by `step` for a line unit whose bits are no encoding (R73, R74). Safe. -/
  | undecodable (e : DecodeError)
  deriving DecidableEq, Repr

/-- The machine: one channel and its environment. -/
@[ext]
structure State where
  cs       : Channel
  tx       : Engine
  /-- `LINE_OUT` (R29). -/
  lineOut  : Level
  /-- `SQ.active` (R29). -/
  sqActive : Bool
  out      : Strobes
  poll     : Poll
  env      : Env
  params   : Params
  deriving DecidableEq, Repr

/-- The Channel State after `RESET` for a role strap (R36). -/
def Channel.reset (strap : Role) : Channel :=
  { status := .uninitialized, pendingFrame := 0, lastEdgeTimestamp := 0, receivedBitCount := 0,
    role := strap, lastResponseStatus := .none, edgeEnable := false }

/-- The engine after `RESET` (R36). `kind`, `word`, `phase` and `t0` are unspecified there: DESIGN CHOICE (log 4),
never read while `busy` is 0. -/
def Engine.reset : Engine :=
  { busy := false, kind := .request, word := 0, phase := 0, t0 := 0 }

/-- The machine right after `RESET` (R36, R231). The strap `MASTER`, the clock 0, `line_in` at `IDLE`, the empty
scripts and the parameters are the environment's: DESIGN CHOICE (logs 1, 3, 6, 8). -/
def State.reset : State :=
  { cs := Channel.reset .master
    tx := Engine.reset
    lineOut := .idle
    sqActive := false
    out := { res := .none, done := .none }
    poll := { schedule := [], after := 0, count := 0 }
    env := { clock := 0, lineIn := .idle, roleStrap := .master, rstScript := [], lineScript := [], hostScript := [] }
    params := Params.default }

end Sys2Proof.Machine
end

