-- ==== Sys2Proof/Machine/Operands.lean ====
section
/-! DEFINITION. Operand and result forms: frame fields (R70, R83), result words (R81), the temperature operand (R79,
R84, R111), and the codes of the enumerations (R75 to R78). -/

namespace Sys2Proof.Machine

/-! ## Frame fields (R70) -/

/-- `MSG_TYPE`, bits 30 to 28. -/
def msgTypeField (f : Frame) : BitVec 3 := f.extractLsb' 28 3

/-- `DATA_ID`, bits 23 to 16. -/
def dataIdField (f : Frame) : BitVec 8 := f.extractLsb' 16 8

/-- `DATA_VALUE`, bits 15 to 0. -/
def dataField (f : Frame) : BitVec 16 := f.extractLsb' 0 16

/-- Upper byte of the data value, bits 15 to 8 (R55). -/
def upperByte (f : Frame) : BitVec 8 := f.extractLsb' 8 8

/-- Lower byte of the data value, bits 7 to 0 (R55). -/
def lowerByte (f : Frame) : BitVec 8 := f.extractLsb' 0 8

/-- The builders' `f0 = {0, type, 0000, id, data}` (R83, R102): spare bits and parity bit 0. -/
def assemble (t : MsgType) (id : BitVec 8) (data : BitVec 16) : Frame :=
  (0 : BitVec 1) ++ t.code ++ (0 : BitVec 4) ++ id ++ data

/-- `MODIFY_MSG_DATA`'s `g0 = {0, frame[30:16], newData}` (R114): bits 30 to 16 kept. -/
def replaceData (f : Frame) (newData : BitVec 16) : Frame :=
  (0 : BitVec 1) ++ f.extractLsb' 16 15 ++ newData

/-! ## Result words (R81) -/

/-- A Boolean result: `res[0]`, the other bits 0. -/
def boolWord (b : Bool) : Word := if b then 1 else 0

/-- A narrower unsigned result, zero-extended. -/
def zext {n : Nat} (v : BitVec n) : Word := v.setWidth 32

/-- `GET_INT16` and `GET_FLOAT` sign-extend. -/
def sext {n : Nat} (v : BitVec n) : Word := v.signExtend 32

/-! ## The temperature operand (R79 form (c), R111) -/

/-- `floor(clamp(num / den, 0, 100) * 256)` for the exact rational `num / den`, `den` positive (R111). -/
def temperatureRatio (num : Int) (den : Nat) : Nat :=
  ((max 0 (min num (100 * den)) * 256) / den).toNat

/-- The data word of a temperature carried on `A` in the `TEMP_IN` format: `x = signed(A) / 2^n` (R79, R111). -/
def temperatureWord (t : TempIn) (a : Word) : BitVec 16 :=
  match t with
  | .fixed n => BitVec.ofNat 16 (temperatureRatio a.toInt (2 ^ n))

/-! ## Codes (R75 to R78) -/

/-- `CS.status` codes (R76). -/
def Status.code : Status → BitVec 4
  | .uninitialized => 0
  | .ready => 1
  | .delay => 2
  | .sending => 3
  | .awaitingResponse => 4
  | .receivedStartBit => 5
  | .receiving => 6
  | .responseReady => 7
  | .responseInvalid => 8

/-- Response-status codes (R77). -/
def RespStatus.code : RespStatus → BitVec 3
  | .success => 0
  | .timeout => 1
  | .invalidStart => 2
  | .invalidParity => 3
  | .invalidMessageType => 4
  | .none => 5

/-- `TX.kind` codes (R78). -/
def TxKind.code : TxKind → BitVec 2
  | .request => 0
  | .response => 1
  | .init => 2

/-- Role codes (R75). -/
def roleCode : Role → BitVec 1
  | .master => 0
  | .slave => 1

/-- Level codes (R75). -/
def levelCode (l : Level) : BitVec 1 := BitVec.ofBool l.toBool

/-- The complement `~level` (R13, R157). -/
def invert : Level → Level
  | .idle => .active
  | .active => .idle

end Sys2Proof.Machine
end

