-- ==== Sys2Proof/Machine/Flags.lean ====
section
/-! DEFINITION. The Boolean functions of the block: parity (R101, R115), the validity predicates (R112, R113), and the
validator and classifier `TICK` applies (R176, R177). There is no flags register (R33): these are results. -/

namespace Sys2Proof.Machine

/-- How many of the bits below `k` are 1. -/
def popcountBelow {n : Nat} (v : BitVec n) : Nat → Nat
  | 0 => 0
  | k + 1 => (v.getLsbD k).toNat + popcountBelow v k

/-- `popcount(v)` (R13). -/
def popcount {n : Nat} (v : BitVec n) : Nat := popcountBelow v n

/-- `PARITY`: "counts set bits in the given value and returns whether that count is odd" (R101). -/
def parity (f : Frame) : Bool := popcount f % 2 == 1

/-- `f0 | (PARITY(f0) ? 0x80000000 : 0)`: the parity bit inserted last (R83, R102, R114). -/
def insertParity (f0 : Frame) : Frame := f0 ||| (if parity f0 then 0x80000000 else 0)

/-- `buildRequest` and `buildResponse` compute one function (R88, R102, R103). -/
def buildFrame (t : MsgType) (id : BitVec 8) (data : BitVec 16) : Frame := insertParity (assemble t id data)

/-- `modifyMsgData` (R114). -/
def modifyData (f : Frame) (newData : BitVec 16) : Frame := insertParity (replaceData f newData)

/-- `isValidRequest`: types 0, 1 and 2 (R112). -/
def validRequest (f : Frame) : Bool := msgTypeField f == 0 || msgTypeField f == 1 || msgTypeField f == 2

/-- `isValidResponse`: types 4, 5, 6 and 7 (R113). -/
def validResponse (f : Frame) : Bool :=
  msgTypeField f == 4 || msgTypeField f == 5 || msgTypeField f == 6 || msgTypeField f == 7

/-- `RxValidator(f)` for a map and a role (R177). -/
def rxValidator (m : RxValidatorMap) (r : Role) (f : Frame) : Bool :=
  match m, r with
  | .directional, .master => validResponse f
  | .directional, .slave => validRequest f
  | .literal44, .master => validRequest f
  | .literal44, .slave => validResponse f

/-- The class of a completely received frame: parity first, then the type (R176). -/
def classify (m : RxValidatorMap) (r : Role) (f : Frame) : RespStatus :=
  if parity f then .invalidParity
  else if rxValidator m r f then .success
  else .invalidMessageType

end Sys2Proof.Machine
end

