-- ==== Sys2Proof/Machine/Ops.lean ====
section
/-! DEFINITION. The named operations over the state that the meanings share: time (R10, R13), the line (R51, R220), the
result (R81), the completion (R213: the block's counterpart of taking an exception), the transmit engine (R132 to
R137), the waveform on a line (R136), `TICK` (R172 to R179) and the receive table (R152 to R159). -/

namespace Sys2Proof.Machine

/-! ## Time -/

/-- `2^TS_WIDTH`. -/
def State.period (s : State) : Nat := 2 ^ s.params.tsWidth

/-- `Now()`: true time modulo `2^TS_WIDTH` (R10, R51). -/
def State.now (s : State) : Nat := s.env.clock % s.period

/-- `Elapsed(now) = (now - CS.lastEdgeTimestamp) mod 2^TS_WIDTH` (R13). -/
def State.elapsed (s : State) : Nat :=
  (s.now + (s.period - s.cs.lastEdgeTimestamp % s.period)) % s.period

/-! ## Updates -/

/-- Every event begins with its strobes low: `res` and `done_*` are valid for one event (R30, R81, R213). -/
def State.openEvent (s : State) : State := { s with out := { res := none, done := none } }

/-- The result port carries `v` (R81). -/
def State.withRes (v : Word) (s : State) : State := { s with out := { s.out with res := some v } }

/-- `CS.status <- st`. -/
def State.setStatus (st : Status) (s : State) : State := { s with cs := { s.cs with status := st } }

/-- `CS.status <- st ; CS.lastEdgeTimestamp <- now`, together (R154, R155, R158). -/
def State.stamp (st : Status) (s : State) : State :=
  { s with cs := { s.cs with status := st, lastEdgeTimestamp := s.now } }

/-- `Complete(frame, rstatus)` with all that a delivery writes (R213): `done_*` with `CS.pendingFrame`,
`CS.lastResponseStatus`, and `CS.status`, `READY` for `TIMEOUT` and `DELAY` for every other class (R200). -/
def State.complete (r : RespStatus) (s : State) : State :=
  { s with
    cs := { s.cs with status := if r = .timeout then .ready else .delay, lastResponseStatus := r }
    out := { s.out with done := some { frame := s.cs.pendingFrame, status := r } } }

/-- `cmd_ready` = not `TX.busy` and not `SQ.active` (R30, R186). -/
def State.cmdReady (s : State) : Bool := !s.tx.busy && !s.sqActive

/-! ## Acceptance -/

/-- A command: at a ready port it runs on the state with its strobes low; at a port that is not ready it
is not accepted (R186), which `step` never asks for (R139, U10; log 11). -/
def State.accept (s : State) (run : State → State) : Host.Outcome State Fault Refusal :=
  if s.cmdReady then .next (run s.openEvent) else .refused .portNotReady

/-- A command that only returns a value. -/
def State.answer (s : State) (v : Word) : Host.Outcome State Fault Refusal := s.accept (State.withRes v)

/-- An event that its rule enables. -/
def State.whenEnabled (s : State) (enabled : Bool) (run : State → State) : Host.Outcome State Fault Refusal :=
  if enabled then .next (run s.openEvent) else .refused .eventNotEnabled

/-! ## The line -/

/-- Puts an arrival into a list ordered by time, behind those of the same time. -/
def insertArrival (a : LineArrival) : List LineArrival → List LineArrival
  | [] => [a]
  | b :: bs => if a.time < b.time then a :: b :: bs else b :: insertArrival a bs

/-- Puts several arrivals, one after the other. -/
def insertArrivals (new old : List LineArrival) : List LineArrival :=
  new.foldl (fun l a => insertArrival a l) old

/-- `LineWrite(l)` (R51): writing the level already driven changes nothing. Where the platform couples the output back
into the input (U17, R238), a transition of `line_out` is also an `EDGE` at the same `now`. -/
def State.lineWrite (l : Level) (s : State) : State :=
  if s.lineOut = l then s
  else
    { s with
      lineOut := l
      env := { s.env with
        lineScript :=
          if s.params.coupled then insertArrival ⟨s.env.clock, .edge l⟩ s.env.lineScript else s.env.lineScript } }

/-- The pin level of `line_out` (R8 `ACTIVE_LEVEL`, R220). -/
def State.linePin (s : State) : PinLevel :=
  match s.lineOut, s.params.activeLevel with
  | .active, p => p
  | .idle, .high => .low
  | .idle, .low => .high

/-! ## Waveforms -/

/-- The level of half-bit phase `p` of a 34-symbol word: `w[33 - (p div 2)] xor (p mod 2)` (R132). -/
def txLevel (w : TxWord) (p : Nat) : Level := Level.ofBool ((w.getLsbD (33 - p / 2)).xor (p % 2 == 1))

/-- `{1, frame[31:0], 1}` (R74). -/
def frameWord (f : Frame) : TxWord := (1 : BitVec 1) ++ f ++ (1 : BitVec 1)

/-- The 68 half-bit levels of a word (R132, `TxWave`). -/
def txWave (w : TxWord) : List Level := (List.range 68).map (txLevel w)

/-- The two halves of a symbol: `b` then `~b` (R73). -/
def symbolWave (b : Bool) : List Level := [Level.ofBool b, Level.ofBool (!b)]

/-- The transitions of a line that has level `l` and then takes the given levels, one each `T_HALF`, from time `t`
(R136): an `EDGE` where the level changes, nothing where it stays. -/
def transitions (l : Level) (t : Nat) : List Level → List LineArrival
  | [] => []
  | l' :: ls =>
    if l' = l then transitions l (t + Config.tHalf) ls
    else ⟨t, .edge l'⟩ :: transitions l' (t + Config.tHalf) ls

/-- A waveform arrives on `line_in` now: its transitions are the next `EDGE` events (R136, R161; log 7). -/
def State.arriveWave (levels : List Level) (s : State) : State :=
  { s with env := { s.env with
      lineScript := insertArrivals (transitions s.env.lineIn s.env.clock levels) s.env.lineScript } }

/-- A whole transmission arrives on `line_in`: 34 symbols, "then the line is left in the idle level" (R74). -/
def State.arriveWord (w : TxWord) (s : State) : State := s.arriveWave (txWave w ++ [.idle])

/-! ## The transmit engine (R133 to R137) -/

/-- `TX_BEGIN(frame, kind)` (R133). -/
def State.txBegin (f : Frame) (k : TxKind) (s : State) : State :=
  { s with tx := { busy := true, kind := k, word := frameWord f, phase := 0, t0 := s.now } }
    |>.lineWrite (txLevel (frameWord f) 0)

/-- `INIT_BEGIN` (R137). -/
def State.initHold (s : State) : State :=
  { s.lineWrite .idle with tx := { s.tx with busy := true, kind := .init, t0 := s.now } }

/-- The `now` at which the engine's next event occurs: the end of the hold (R137), or of the phase being driven
(R134, R135: `TX.t0 + 34,000` is the end of phase 67). -/
def Engine.dueAt (e : Engine) : Nat :=
  match e.kind with
  | .init => e.t0 + Config.tCold
  | .request | .response => e.t0 + Config.tHalf * (e.phase.toNat + 1)

/-- The engine's event is due at this `now` (R134, R135, R137). -/
def State.engineDue (s : State) : Bool := s.now == s.tx.dueAt % s.period

/-- `TX_STEP` is enabled (R134). -/
def State.txStepEnabled (s : State) : Bool :=
  s.tx.busy && s.tx.kind != .init && decide (s.tx.phase.toNat < 67) && s.engineDue

/-- `TX_END` is enabled (R135). -/
def State.txEndEnabled (s : State) : Bool :=
  s.tx.busy && s.tx.kind != .init && decide (s.tx.phase.toNat = 67) && s.engineDue

/-- `INIT_END` is enabled (R137). -/
def State.initEndEnabled (s : State) : Bool := s.tx.busy && s.tx.kind == .init && s.engineDue

/-- The next phase and its level (R134). -/
def State.nextPhase (s : State) : State :=
  { s with tx := { s.tx with phase := s.tx.phase + 1 } }
    |>.lineWrite (txLevel s.tx.word (s.tx.phase.toNat + 1))

/-- `TX.busy <- 0`. -/
def State.freeEngine (s : State) : State := { s with tx := { s.tx with busy := false } }

/-- Sequencer ticks are later than this event (R181). -/
def State.pollAfter (s : State) : State := { s with poll := { s.poll with after := s.env.clock } }

/-- The first event of an accepted request (R180 step 1). -/
def State.beginRequest (f : Frame) (s : State) : State :=
  { s with cs := { s.cs with status := .sending, pendingFrame := 0, lastResponseStatus := .none } }
    |>.txBegin f .request

/-- The last event of a request's transmission (R180 step 3, R181): the Boolean result is output only for
`SEND_REQUEST_ASYNC`; for `SEND_REQUEST` the sequencer's ticks begin. -/
def State.endRequest (s : State) : State :=
  let t := s.stamp .awaitingResponse
  if s.sqActive then t.pollAfter else t.withRes 1

/-! ## TICK (R172 to R179) -/

/-- One `TICK`, less its result: the priority chain of R172, the first match being the only action. -/
def State.tickEffect (s : State) : State :=
  if s.cs.status = .ready then s
  else if Config.tTimeout < s.elapsed then s.complete .timeout
  else
    match s.cs.status with
    | .responseInvalid => s.complete .invalidStart
    | .responseReady => s.complete (classify s.params.rxMap s.cs.role s.cs.pendingFrame)
    | .delay => if Config.tDelay < s.elapsed then s.setStatus .ready else s
    | .uninitialized | .ready | .sending | .awaitingResponse | .receivedStartBit | .receiving => s

/-- A `TICK` of the sequencer has happened at this time: the next one is later (R181). -/
def State.pollNext (s : State) : State :=
  { s with poll := { s.poll with after := s.env.clock, count := s.poll.count + 1 } }

/-- The end of `SEND_REQUEST` in the first sequencer tick after which the status is `READY` (R181 step 4). -/
def State.endSequence (s : State) : State :=
  if s.cs.status = .ready then { s with sqActive := false }.withRes s.cs.pendingFrame else s

/-- A sequencer `TICK` can happen: `SQ.active`, after `TX_END`, later than the tick before (R181). -/
def State.sequencerEnabled (s : State) : Bool := s.sqActive && !s.tx.busy && decide (s.poll.after < s.env.clock)

/-! ## The receive table (R152 to R159) -/

/-- The new bit `~level` shifted in at the least significant end (R157). -/
def shiftIn (f : Frame) (l : Level) : Frame := (f <<< 1) ||| zext (levelCode (invert l))

/-- `AWAITING_RESPONSE`'s row (R154). -/
def State.firstEdge (l : Level) (s : State) : State :=
  match l with
  | .active => s.stamp .receivedStartBit
  | .idle => s.stamp .responseInvalid

/-- `RECEIVED_START_BIT`'s row (R155). -/
def State.confirmStart (l : Level) (s : State) : State :=
  if s.elapsed < Config.tMid ∧ l = .idle then
    let t := s.stamp .receiving
    { t with cs := { t.cs with receivedBitCount := 0 } }
  else s.stamp .responseInvalid

/-- `RECEIVING`'s rows: the filter (R156), a data bit (R157), the stop bit (R158). A count above 32 is never
written; no rule applies to it and nothing changes (log 14). -/
def State.sample (l : Level) (s : State) : State :=
  if s.elapsed ≤ Config.tMid then s
  else if s.cs.receivedBitCount.toNat < Config.nBits then
    let t := s.stamp .receiving
    { t with cs := { t.cs with
        pendingFrame := shiftIn s.cs.pendingFrame l, receivedBitCount := s.cs.receivedBitCount + 1 } }
  else if s.cs.receivedBitCount.toNat = Config.nBits then s.stamp .responseReady
  else s

/-- The Receive State Machine (R152 to R159): one edge, by the status before it. -/
def State.receive (l : Level) (s : State) : State :=
  if s.cs.edgeEnable then
    match s.cs.status with
    | .ready => if s.cs.role = .slave ∧ l = .active then s.firstEdge l else s
    | .awaitingResponse => s.firstEdge l
    | .receivedStartBit => s.confirmStart l
    | .receiving => s.sample l
    | .uninitialized | .delay | .sending | .responseReady | .responseInvalid => s
  else s

/-- `line_in` has the level of its last transition (R150, R220). -/
def State.setLineIn (l : Level) (s : State) : State := { s with env := { s.env with lineIn := l } }

/-! ## RESET (R230) -/

/-- `RESET`: every register at R36, the strap sampled into `CS.role`, any activity abandoned, no strobe. The clock, the
inputs and the parameters are not the block's to reset (logs 4, 5). -/
def State.toReset (s : State) : State :=
  { s.lineWrite .idle with
    cs := Channel.reset s.env.roleStrap
    tx := Engine.reset
    sqActive := false
    out := { res := none, done := none } }

end Sys2Proof.Machine
end

