-- ==== Sys2Proof/Machine/Codec.lean ====
section
/-! DEFINITION. The fourteen Frame Codec commands (spec/40_frame_codec.md R100 to R114): pure functions of their operands,
issued while `cmd_ready` is 1, "not while `TX.busy` = 1, because the command port accepts nothing then" (R100). -/

namespace Sys2Proof.Machine

/-- R101. -/
def execParity (f : Frame) (s : State) : Host.Outcome State Fault Refusal := s.answer (boolWord (parity f))

/-- R102. -/
def execBuildRequest (t : MsgType) (id : BitVec 8) (data : BitVec 16) (s : State) : Host.Outcome State Fault Refusal :=
  s.answer (buildFrame t id data)

/-- R103. -/
def execBuildResponse (t : MsgType) (id : BitVec 8) (data : BitVec 16) (s : State) : Host.Outcome State Fault Refusal :=
  s.answer (buildFrame t id data)

/-- R104. -/
def execGetMessageType (f : Frame) (s : State) : Host.Outcome State Fault Refusal := s.answer (zext (msgTypeField f))

/-- R105. -/
def execGetDataId (f : Frame) (s : State) : Host.Outcome State Fault Refusal := s.answer (zext (dataIdField f))

/-- R106. -/
def execGetUInt16 (f : Frame) (s : State) : Host.Outcome State Fault Refusal := s.answer (zext (dataField f))

/-- R107. -/
def execGetInt16 (f : Frame) (s : State) : Host.Outcome State Fault Refusal := s.answer (sext (dataField f))

/-- R108: the sign-extended raw value, to be read with 8 fractional bits. -/
def execGetFloat (f : Frame) (s : State) : Host.Outcome State Fault Refusal := s.answer (sext (dataField f))

/-- R109. -/
def execGetUbUInt8 (f : Frame) (s : State) : Host.Outcome State Fault Refusal := s.answer (zext (upperByte f))

/-- R110. -/
def execGetLbUInt8 (f : Frame) (s : State) : Host.Outcome State Fault Refusal := s.answer (zext (lowerByte f))

/-- R111. -/
def execTemperatureToData (a : Word) (s : State) : Host.Outcome State Fault Refusal :=
  s.answer (zext (temperatureWord s.params.tempIn a))

/-- R112. -/
def execIsValidRequest (f : Frame) (s : State) : Host.Outcome State Fault Refusal := s.answer (boolWord (validRequest f))

/-- R113. -/
def execIsValidResponse (f : Frame) (s : State) : Host.Outcome State Fault Refusal :=
  s.answer (boolWord (validResponse f))

/-- R114. -/
def execModifyMsgData (f : Frame) (newData : BitVec 16) (s : State) : Host.Outcome State Fault Refusal :=
  s.answer (modifyData f newData)

end Sys2Proof.Machine
end

