-- ==== Sys2Proof/Machine/Controller.lean ====
section
/-! DEFINITION. The seven Channel Controller commands (spec/43_channel_controller.md R171 to R184). A blocking command is
its first event here; its transmit-engine events and its last event are those of Machine/LineDriver.lean and, for
`SEND_REQUEST`, the ticks of its sequencer (R186). -/

namespace Sys2Proof.Machine

/-- R171 step 1: `INIT_BEGIN`. The hold and step 3 are `INIT_END` (R137). -/
def execInitChannel (s : State) : Host.Outcome State Fault Refusal := s.accept State.initHold

/-- R172 to R179 for the command; while `SQ.active` the `TICK` events are the sequencer's (R181 step 4). -/
def execTick (s : State) : Host.Outcome State Fault Refusal :=
  if s.sequencerEnabled then .next s.openEvent.tickEffect.pollNext.endSequence
  else s.accept (fun t => t.tickEffect.withRes 0)

/-- R180 step 1: one atomic test-and-set; a rejection is a false result and nothing else (R207). -/
def execSendRequestAsync (f : Frame) (s : State) : Host.Outcome State Fault Refusal :=
  s.accept (fun t => if t.cs.status = .ready then t.beginRequest f else t.withRes 0)

/-- R181 step 1. -/
def execSendRequest (f : Frame) (s : State) : Host.Outcome State Fault Refusal :=
  s.accept (fun t => if t.cs.status = .ready then { t.beginRequest f with sqActive := true } else t.withRes 0)

/-- R182 step 1: no test of `CS.status`, no write to `CS`. -/
def execSendResponse (f : Frame) (s : State) : Host.Outcome State Fault Refusal := s.accept (State.txBegin f .response)

/-- R183. -/
def execIsReady (s : State) : Host.Outcome State Fault Refusal := s.answer (boolWord (s.cs.status = .ready))

/-- R184. -/
def execGetLastResponseStatus (s : State) : Host.Outcome State Fault Refusal :=
  s.answer (zext s.cs.lastResponseStatus.code)

end Sys2Proof.Machine
end

