-- ==== Sys2Proof/Machine/LineDriver.lean ====
section
/-! DEFINITION. The events of the transmit engine (spec/41_line_driver.md R133 to R137) and `RESET`
(spec/70_reset_and_hazards.md R230). An engine event occurs exactly where its rule enables it; elsewhere there is no
such event, and `step` never asks for one (log 12). -/

namespace Sys2Proof.Machine

/-- `TX_STEP` (R134). -/
def execTxStep (s : State) : Host.Outcome State Fault Refusal := s.whenEnabled s.txStepEnabled State.nextPhase

/-- `TX_END` (R135) with the completion of the command that owns the engine: a request (R180 step 3), a response
(R182 step 3: `CS.status <- READY`, the result true). -/
def execTxEnd (s : State) : Host.Outcome State Fault Refusal :=
  s.whenEnabled s.txEndEnabled (fun t =>
    let u := (t.lineWrite .idle).freeEngine
    match s.tx.kind with
    | .request => u.endRequest
    | .response => (u.setStatus .ready).withRes 1
    | .init => u)

/-- `INIT_BEGIN` by itself: the first event of `INITIALIZE` (R137, R171 step 1), under the same condition (log 17). -/
def execInitBegin (s : State) : Host.Outcome State Fault Refusal := s.accept State.initHold

/-- `INIT_END` (R137) with `INITIALIZE`'s step 3 (R171): the edge input enabled, `CS.status <- READY`, result 0. -/
def execInitEnd (s : State) : Host.Outcome State Fault Refusal :=
  s.whenEnabled s.initEndEnabled (fun t =>
    let u := t.freeEngine.setStatus .ready
    { u with cs := { u.cs with edgeEnable := true } }.withRes 0)

/-- `RESET` (R230). -/
def execReset (s : State) : Host.Outcome State Fault Refusal := .next s.toReset

end Sys2Proof.Machine
end

