-- ==== Sys2Proof/Machine/Receive.lean ====
section
/-! DEFINITION. What arrives on `line_in`: the `EDGE` event (spec/42_receive_sm.md R150 to R159), and the rows of the table
that are formats of the line. A frame, a symbol or a transmission word arriving is its waveform (R73, R74, R136), whose
transitions are `EDGE` events from now on (R161; DESIGN CHOICE, log 7). A frame travels only inside its transmission
`{1, frame, 1}` (R74). -/

namespace Sys2Proof.Machine

/-- `EDGE(now, level)` (R150 to R159): never refused, "a pure, total function" (R151). -/
def execEdge (l : Level) (s : State) : Host.Outcome State Fault Refusal :=
  .next ((s.openEvent.setLineIn l).receive l)

/-- `READ_DATA` frame on the line (R71 code 0). -/
def execFrameReadData (f : Frame) (s : State) : Host.Outcome State Fault Refusal :=
  .next (s.openEvent.arriveWord (frameWord f))

/-- `WRITE_DATA` frame on the line (R71 code 1). -/
def execFrameWriteData (f : Frame) (s : State) : Host.Outcome State Fault Refusal :=
  .next (s.openEvent.arriveWord (frameWord f))

/-- `INVALID_DATA` frame on the line (R71 code 2). -/
def execFrameInvalidData (f : Frame) (s : State) : Host.Outcome State Fault Refusal :=
  .next (s.openEvent.arriveWord (frameWord f))

/-- `RESERVED` frame on the line (R71 code 3): "a legal bit pattern" (R85). -/
def execFrameReserved (f : Frame) (s : State) : Host.Outcome State Fault Refusal :=
  .next (s.openEvent.arriveWord (frameWord f))

/-- `READ_ACK` frame on the line (R71 code 4). -/
def execFrameReadAck (f : Frame) (s : State) : Host.Outcome State Fault Refusal :=
  .next (s.openEvent.arriveWord (frameWord f))

/-- `WRITE_ACK` frame on the line (R71 code 5). -/
def execFrameWriteAck (f : Frame) (s : State) : Host.Outcome State Fault Refusal :=
  .next (s.openEvent.arriveWord (frameWord f))

/-- `DATA_INVALID` frame on the line (R71 code 6). -/
def execFrameDataInvalid (f : Frame) (s : State) : Host.Outcome State Fault Refusal :=
  .next (s.openEvent.arriveWord (frameWord f))

/-- `UNKNOWN_DATA_ID` frame on the line (R71 code 7). -/
def execFrameUnknownDataId (f : Frame) (s : State) : Host.Outcome State Fault Refusal :=
  .next (s.openEvent.arriveWord (frameWord f))

/-- Symbol 1 on the line: `ACTIVE` then `IDLE` (R73). -/
def execSymbolBit1 (s : State) : Host.Outcome State Fault Refusal := .next (s.openEvent.arriveWave (symbolWave true))

/-- Symbol 0 on the line: `IDLE` then `ACTIVE` (R73). -/
def execSymbolBit0 (s : State) : Host.Outcome State Fault Refusal := .next (s.openEvent.arriveWave (symbolWave false))

/-- A transmission word on the line (R74). -/
def execTxWord (w : TxWord) (s : State) : Host.Outcome State Fault Refusal := .next (s.openEvent.arriveWord w)

end Sys2Proof.Machine
end

