-- ==== Sys2Proof/Machine/Reserved.lean ====
section
/-! DEFINITION. The eleven reserved command codes: "a command with a reserved code changes no state and its result is
unspecified; a model refuses it" (spec/30_encoding.md R85, U3, D34; log 10). -/

namespace Sys2Proof.Machine

/-- The refusal of a reserved command code (R85). -/
def reservedCode (code : BitVec 5) (_ : State) : Host.Outcome State Fault Refusal := .refused (.reservedCommand code)

/-- Code 0x0E (R85). -/
def execReservedCmd0E (s : State) : Host.Outcome State Fault Refusal := reservedCode 0x0E s

/-- Code 0x0F (R85). -/
def execReservedCmd0F (s : State) : Host.Outcome State Fault Refusal := reservedCode 0x0F s

/-- Code 0x17 (R85). -/
def execReservedCmd17 (s : State) : Host.Outcome State Fault Refusal := reservedCode 0x17 s

/-- Code 0x18 (R85). -/
def execReservedCmd18 (s : State) : Host.Outcome State Fault Refusal := reservedCode 0x18 s

/-- Code 0x19 (R85). -/
def execReservedCmd19 (s : State) : Host.Outcome State Fault Refusal := reservedCode 0x19 s

/-- Code 0x1A (R85). -/
def execReservedCmd1A (s : State) : Host.Outcome State Fault Refusal := reservedCode 0x1A s

/-- Code 0x1B (R85). -/
def execReservedCmd1B (s : State) : Host.Outcome State Fault Refusal := reservedCode 0x1B s

/-- Code 0x1C (R85). -/
def execReservedCmd1C (s : State) : Host.Outcome State Fault Refusal := reservedCode 0x1C s

/-- Code 0x1D (R85). -/
def execReservedCmd1D (s : State) : Host.Outcome State Fault Refusal := reservedCode 0x1D s

/-- Code 0x1E (R85). -/
def execReservedCmd1E (s : State) : Host.Outcome State Fault Refusal := reservedCode 0x1E s

/-- Code 0x1F (R85). -/
def execReservedCmd1F (s : State) : Host.Outcome State Fault Refusal := reservedCode 0x1F s

end Sys2Proof.Machine
end

