-- ==== Sys2Proof/Machine/Dispatch.lean ====
section
/-! DEFINITION. The dispatch: one arm per row of spec/opcode_table.json, each one call of its meaning. -/

namespace Sys2Proof.Machine

def exec (i : Instr) (s : State) : Host.Outcome State Fault Refusal :=
  match i with
  | .parity f => Sys2Proof.Machine.execParity f s
  | .buildRequest t n d => Sys2Proof.Machine.execBuildRequest t n d s
  | .buildResponse t n d => Sys2Proof.Machine.execBuildResponse t n d s
  | .getMessageType f => Sys2Proof.Machine.execGetMessageType f s
  | .getDataId f => Sys2Proof.Machine.execGetDataId f s
  | .getUInt16 f => Sys2Proof.Machine.execGetUInt16 f s
  | .getInt16 f => Sys2Proof.Machine.execGetInt16 f s
  | .getFloat f => Sys2Proof.Machine.execGetFloat f s
  | .getUbUInt8 f => Sys2Proof.Machine.execGetUbUInt8 f s
  | .getLbUInt8 f => Sys2Proof.Machine.execGetLbUInt8 f s
  | .temperatureToData a => Sys2Proof.Machine.execTemperatureToData a s
  | .isValidRequest f => Sys2Proof.Machine.execIsValidRequest f s
  | .isValidResponse f => Sys2Proof.Machine.execIsValidResponse f s
  | .modifyMsgData f d => Sys2Proof.Machine.execModifyMsgData f d s
  | .initChannel => Sys2Proof.Machine.execInitChannel s
  | .tick => Sys2Proof.Machine.execTick s
  | .sendRequestAsync f => Sys2Proof.Machine.execSendRequestAsync f s
  | .sendRequest f => Sys2Proof.Machine.execSendRequest f s
  | .sendResponse f => Sys2Proof.Machine.execSendResponse f s
  | .isReady => Sys2Proof.Machine.execIsReady s
  | .getLastResponseStatus => Sys2Proof.Machine.execGetLastResponseStatus s
  | .reservedCmd0E => Sys2Proof.Machine.execReservedCmd0E s
  | .reservedCmd0F => Sys2Proof.Machine.execReservedCmd0F s
  | .reservedCmd17 => Sys2Proof.Machine.execReservedCmd17 s
  | .reservedCmd18 => Sys2Proof.Machine.execReservedCmd18 s
  | .reservedCmd19 => Sys2Proof.Machine.execReservedCmd19 s
  | .reservedCmd1A => Sys2Proof.Machine.execReservedCmd1A s
  | .reservedCmd1B => Sys2Proof.Machine.execReservedCmd1B s
  | .reservedCmd1C => Sys2Proof.Machine.execReservedCmd1C s
  | .reservedCmd1D => Sys2Proof.Machine.execReservedCmd1D s
  | .reservedCmd1E => Sys2Proof.Machine.execReservedCmd1E s
  | .reservedCmd1F => Sys2Proof.Machine.execReservedCmd1F s
  | .frameReadData f => Sys2Proof.Machine.execFrameReadData f s
  | .frameWriteData f => Sys2Proof.Machine.execFrameWriteData f s
  | .frameInvalidData f => Sys2Proof.Machine.execFrameInvalidData f s
  | .frameReserved f => Sys2Proof.Machine.execFrameReserved f s
  | .frameReadAck f => Sys2Proof.Machine.execFrameReadAck f s
  | .frameWriteAck f => Sys2Proof.Machine.execFrameWriteAck f s
  | .frameDataInvalid f => Sys2Proof.Machine.execFrameDataInvalid f s
  | .frameUnknownDataId f => Sys2Proof.Machine.execFrameUnknownDataId f s
  | .symbolBit1 => Sys2Proof.Machine.execSymbolBit1 s
  | .symbolBit0 => Sys2Proof.Machine.execSymbolBit0 s
  | .txWord w => Sys2Proof.Machine.execTxWord w s
  | .edge l => Sys2Proof.Machine.execEdge l s
  | .reset => Sys2Proof.Machine.execReset s
  | .txStep => Sys2Proof.Machine.execTxStep s
  | .txEnd => Sys2Proof.Machine.execTxEnd s
  | .initBegin => Sys2Proof.Machine.execInitBegin s
  | .initEnd => Sys2Proof.Machine.execInitEnd s

end Sys2Proof.Machine
end

