-- ==== Sys2Proof/Machine/Schedule.lean ====
section
/-! DEFINITION. Which event comes next, and the word it brings. A run is "a sequence of atomic events, totally ordered"
(R10); the block fetches no instructions (R32, R62), so this takes the place of a fetch (log 1). The earliest event
comes first; at one `now`, `EDGE`, then the engine, then the command (R63, R211). Two places in that order are the
model's choice: `RESET` before all (log 5), and a tick of the `SEND_REQUEST` sequencer behind an `EDGE` (log 28). -/

namespace Sys2Proof.Machine

/-- Who causes an event. -/
inductive Source where
  /-- The reset pin. -/
  | rst
  /-- The input line. -/
  | line
  /-- The transmit engine. -/
  | engine
  /-- The `SEND_REQUEST` sequencer. -/
  | sequencer
  /-- HOST, on the command port. -/
  | host
  deriving DecidableEq, Repr

/-- An event that can come, and its true time. -/
structure Candidate where
  source : Source
  time   : Nat
  deriving DecidableEq, Repr

/-- The earliest candidate, the first of those of one time. -/
def earliest : List Candidate → Option Candidate
  | [] => none
  | c :: cs =>
    match earliest cs with
    | none => some c
    | some d => if c.time ≤ d.time then some c else some d

/-- The wire of the engine's next event, where there is one (R134, R135, R137). -/
def Engine.nextWire (e : Engine) : Option Wire :=
  if e.busy then
    match e.kind with
    | .init => some .initEnd
    | .request | .response =>
      if e.phase.toNat < 67 then some .txStep else if e.phase.toNat = 67 then some .txEnd else none
  else none

/-- The true time of the engine's next event: the first time from now at which `now` is `dueAt mod 2^TS_WIDTH`. -/
def State.engineTime (s : State) : Nat :=
  s.env.clock + (s.tx.dueAt % s.period + (s.period - s.now)) % s.period

/-- The true time of the sequencer's next tick: the next scheduled time later than the tick before, or, past the
schedule's end, a free distance later (R8 `POLL_SCHEDULE`, R181; log 8). -/
def State.pollTime (s : State) : Nat :=
  match s.poll.schedule.dropWhile (fun t => decide (t ≤ s.poll.after)) with
  | t :: _ => t
  | [] => s.poll.after + 1 + Config.pollGap s.poll.count

/-- What may come from each source, in the order that decides ties: `EDGE`, engine, command by R63 and R211. DESIGN CHOICE:
those rules do not place `RESET`, which the model puts first (log 5), nor a sequencer tick, which it puts behind an
`EDGE` at the same time (log 28). With the engine no tie of a tick arises (R181), nor with a command (R186). Nothing comes
before the clock: a late item comes now (log 21), and a command waits for `cmd_ready` (R186). -/
def State.candidates (s : State) : List Candidate :=
  ((s.env.rstScript.head?.map fun t => Candidate.mk .rst (max s.env.clock t)).toList
    ++ (s.env.lineScript.head?.map fun a => Candidate.mk .line (max s.env.clock a.time)).toList)
  ++ ((if s.tx.nextWire.isSome then [Candidate.mk .engine s.engineTime] else [])
    ++ (if s.sqActive && !s.tx.busy then [Candidate.mk .sequencer (max s.env.clock s.pollTime)] else [])
    ++ (if s.cmdReady then
          (s.env.hostScript.head?.map fun c => Candidate.mk .host (max s.env.clock c.time)).toList
        else []))

/-- The next event, `none` where nothing is to come. -/
def State.nextEvent (s : State) : Option Candidate := earliest s.candidates

/-- The word a line unit brings. -/
def LineUnit.packet : LineUnit → Packet
  | .edge l => ⟨.edge, if l.toBool then 1 else 0⟩
  | .symbol h => ⟨.symbol, h.setWidth 53⟩
  | .frame f => ⟨.frame, f.setWidth 53⟩
  | .word w => ⟨.txWord, w.setWidth 53⟩

/-- The `TICK` command word (R80), which the sequencer performs too: "each exactly rule R172" (R181). -/
def tickPacket : Packet := ⟨.cmd, 0x11000000000000⟩

/-- The word the next event brings. -/
def State.eventPacket (s : State) : Source → Packet
  | .rst => ⟨.rst, 0⟩
  | .line => (s.env.lineScript.head?.map fun a => a.unit.packet).getD ⟨.edge, 0⟩
  | .engine => ⟨s.tx.nextWire.getD .txStep, 0⟩
  | .sequencer => tickPacket
  | .host => (s.env.hostScript.head?.map fun c => Packet.mk .cmd c.word).getD tickPacket

/-- The event is taken: the clock is at its time and the environment has moved past it. -/
def State.advance (c : Candidate) (s : State) : State :=
  match c.source with
  | .rst => { s with env := { s.env with clock := c.time, rstScript := s.env.rstScript.tail } }
  | .line => { s with env := { s.env with clock := c.time, lineScript := s.env.lineScript.tail } }
  | .engine => { s with env := { s.env with clock := c.time } }
  | .sequencer => { s with env := { s.env with clock := c.time } }
  | .host => { s with env := { s.env with clock := c.time, hostScript := s.env.hostScript.tail } }

/-- A moment at which nothing happens: no event is to come, the strobes are low (log 20). -/
def State.idleMoment (s : State) : State := s.openEvent

/-! ## Placing one word as the next event -/

/-- The line unit of a packet of the line's formats. -/
def lineUnitOf (p : Packet) : Option LineUnit :=
  match p.wire with
  | .edge => some (.edge (Level.ofBool (p.bits.getLsbD 0)))
  | .symbol => some (.symbol (p.bits.setWidth 2))
  | .frame => some (.frame (p.bits.setWidth 32))
  | .txWord => some (.word (p.bits.setWidth 34))
  | .cmd | .rst | .txStep | .txEnd | .initBegin | .initEnd => none

/-- Nothing else comes now: arrivals due at this moment are taken off. -/
def Env.clearDue (e : Env) : Env :=
  { e with rstScript := e.rstScript.filter (fun t => decide (e.clock < t))
           lineScript := e.lineScript.filter (fun a => decide (e.clock < a.time)) }

/-- The packet placed as the next event, now: a command at the port, made ready; a line unit on the line; the reset
pin. The other wires cannot be driven from outside (R82). -/
def State.placePacket (p : Packet) (s : State) : State :=
  let e := s.env.clearDue
  match lineUnitOf p with
  | some u => { s with env := { e with lineScript := ⟨e.clock, u⟩ :: e.lineScript } }
  | none =>
    match p.wire with
    | .cmd =>
      { s with
        tx := { s.tx with busy := false }
        sqActive := false
        env := { e with hostScript := ⟨e.clock, p.bits⟩ :: e.hostScript } }
    | .rst => { s with env := { e with rstScript := e.clock :: e.rstScript } }
    | .frame | .symbol | .txWord | .edge | .txStep | .txEnd | .initBegin | .initEnd => s

/-- A table word placed as the next event; a word that no wire carries is not placed. -/
def State.placeWord (nbits w : Nat) (s : State) : State :=
  match tablePacket nbits w with
  | some p => s.placePacket p
  | none => s

end Sys2Proof.Machine
end

