-- ==== Sys2Proof/Machine/Step.lean ====
section
/-! DEFINITION. One step: the next event of the run (R10), its word decoded and performed in one atomic event (R56). -/

namespace Sys2Proof.Machine

/-- One event. Where no event is to come, nothing happens (R231: "the block does nothing until HOST issues a
command"; log 20). -/
def step (s : State) : Host.Outcome State Fault Refusal :=
  match s.nextEvent with
  | none => .next s.idleMoment
  | some c =>
    match decode (s.eventPacket c.source) with
    | .error e => .refused (.undecodable e)
    | .ok i => exec i (s.advance c)

/-- The table word `w` of `nbits` bits placed where `step` takes its next event (log 1). -/
def State.withFetchWord (s : State) (nbits w : Nat) : State := s.placeWord nbits w

end Sys2Proof.Machine
end

