-- ==== Sys2Proof/Safety.lean ====
section
/-! DEFINITION. What the statements call a consistent state: the relations between the registers that the rules keep
(R24, R29, R132, R185), and words a claim uses about edges and runs. -/

namespace Sys2Proof.Machine

/-- The stored times fit `TS_WIDTH` bits (R23, R29), a positive width (R8). -/
abbrev State.timesFit (s : State) : Prop :=
  0 < s.params.tsWidth ∧ s.cs.lastEdgeTimestamp < s.period ∧ s.tx.t0 < s.period

/-- The counters stay in range: the bit count in 0 to 32 (R24), the phase in 0 to 67 (R29, R134). -/
abbrev State.countersFit (s : State) : Prop :=
  s.cs.receivedBitCount.toNat ≤ 32 ∧ s.tx.phase.toNat ≤ 67

/-- The output line is what the engine drives: idle when it is free or holds (R135, R137), else the level of the
phase of a framed word (R74, R132). -/
abbrev State.lineDriven (s : State) : Prop :=
  if s.tx.busy = true ∧ s.tx.kind ≠ .init then
    s.lineOut = txLevel s.tx.word s.tx.phase.toNat ∧ isFramed s.tx.word = true
  else s.lineOut = .idle

/-- `SENDING` holds exactly while a request is being transmitted (R21, R180). -/
abbrev State.sendingIffRequest (s : State) : Prop :=
  s.cs.status = .sending ↔ s.tx.busy = true ∧ s.tx.kind = .request

/-- `SQ.active` is 1 only while a request is transmitted or, with the engine free, the status is not `READY` (R181). -/
abbrev State.sequencerOpen (s : State) : Prop :=
  s.sqActive = true →
    (s.tx.busy = true ∧ s.tx.kind = .request) ∨ (s.tx.busy = false ∧ s.cs.status ≠ .ready)

/-- With the edge input not yet enabled no reception has begun (R28, R152), and before the first `INITIALIZE` is
finished `UNINITIALIZED` is possible only then. -/
abbrev State.receptionEnabled (s : State) : Prop :=
  (s.cs.edgeEnable = false →
    s.cs.status ≠ .receivedStartBit ∧ s.cs.status ≠ .receiving ∧ s.cs.status ≠ .responseReady ∧
    s.cs.status ≠ .responseInvalid ∧ s.cs.status ≠ .delay) ∧
  (s.cs.edgeEnable = true → s.cs.status ≠ .uninitialized)

/-- The reserved command codes (R80, R85). -/
def reservedCodeOf : Instr → Option (BitVec 5)
  | .reservedCmd0E => some 0x0E
  | .reservedCmd0F => some 0x0F
  | .reservedCmd17 => some 0x17
  | .reservedCmd18 => some 0x18
  | .reservedCmd19 => some 0x19
  | .reservedCmd1A => some 0x1A
  | .reservedCmd1B => some 0x1B
  | .reservedCmd1C => some 0x1C
  | .reservedCmd1D => some 0x1D
  | .reservedCmd1E => some 0x1E
  | .reservedCmd1F => some 0x1F
  | _ => none

/-- The Frame Codec commands (R100). -/
def isCodec : Instr → Bool
  | .parity _ | .buildRequest _ _ _ | .buildResponse _ _ _ | .getMessageType _ | .getDataId _ | .getUInt16 _
  | .getInt16 _ | .getFloat _ | .getUbUInt8 _ | .getLbUInt8 _ | .temperatureToData _ | .isValidRequest _
  | .isValidResponse _ | .modifyMsgData _ _ => true
  | _ => false

/-- The Channel Controller commands (R170). -/
def isController : Instr → Bool
  | .initChannel | .tick | .sendRequestAsync _ | .sendRequest _ | .sendResponse _ | .isReady
  | .getLastResponseStatus => true
  | _ => false

/-- The rows of the table that are formats of the line (R70, R73, R74). -/
def isLineFormat : Instr → Bool
  | .frameReadData _ | .frameWriteData _ | .frameInvalidData _ | .frameReserved _ | .frameReadAck _
  | .frameWriteAck _ | .frameDataInvalid _ | .frameUnknownDataId _ | .symbolBit1 | .symbolBit0 | .txWord _ => true
  | _ => false

/-- The invariant of the block. -/
structure State.Inv (s : State) : Prop where
  timesFit          : s.timesFit
  countersFit       : s.countersFit
  lineDriven        : s.lineDriven
  sendingIffRequest : s.sendingIffRequest
  sequencerOpen     : s.sequencerOpen
  receptionEnabled  : s.receptionEnabled

/-- The environment after the output line is driven to `l`: the same, but for the echo of a transition where the
platform couples the output into the input (U17, R238). -/
def State.echo (l : Level) (s : State) : Env :=
  if s.params.coupled = true ∧ s.lineOut ≠ l then
    { s.env with lineScript := insertArrival ⟨s.env.clock, .edge l⟩ s.env.lineScript }
  else s.env

/-- The number of bits of a frame that are 1, counted bit by bit (R13 `popcount`). -/
def onesOf (f : Frame) : Nat := (List.range 32).countP (fun k => f.getLsbD k)

/-- Nothing of the environment is to come: no reset, no edge, no command. -/
abbrev State.undisturbed (s : State) : Prop :=
  s.env.rstScript = [] ∧ s.env.lineScript = [] ∧ s.env.hostScript = []

/-- The edges of a line script performed one after the other, each at its own time (R150). -/
def feedEdges (s : State) : List LineArrival → Host.Outcome State Fault Refusal
  | [] => .next s
  | a :: rest =>
    match decode a.unit.packet with
    | .error e => .refused (.undecodable e)
    | .ok i =>
      match exec i { s with env := { s.env with clock := a.time } } with
      | .next t => feedEdges t rest
      | .fault r => .fault r
      | .refused r => .refused r

/-- The edges of a frame's transmission, its phase 0 at time `t`, on a line that was idle (R136). -/
def frameEdges (f : Frame) (t : Nat) : List LineArrival := transitions .idle t (txWave (frameWord f))

end Sys2Proof.Machine
end

