-- ==== Sys2Proof/Laws/State.lean ====
section
/-! SUPPORT. One lemma per field per update of the state: what each shared operation leaves alone, and what it writes.
Every one is tagged simp, so that no later proof unfolds a record update. -/

namespace Sys2Proof.Machine

/-! ## Operations that write one group -/

@[simp] theorem State.openEvent_cs (s : State) : (s.openEvent).cs = s.cs := rfl
@[simp] theorem State.openEvent_tx (s : State) : (s.openEvent).tx = s.tx := rfl
@[simp] theorem State.openEvent_lineOut (s : State) : (s.openEvent).lineOut = s.lineOut := rfl
@[simp] theorem State.openEvent_sqActive (s : State) : (s.openEvent).sqActive = s.sqActive := rfl
@[simp] theorem State.openEvent_poll (s : State) : (s.openEvent).poll = s.poll := rfl
@[simp] theorem State.openEvent_env (s : State) : (s.openEvent).env = s.env := rfl
@[simp] theorem State.openEvent_params (s : State) : (s.openEvent).params = s.params := rfl
@[simp] theorem State.openEvent_out (s : State) : s.openEvent.out = { res := none, done := none } := rfl

@[simp] theorem State.withRes_cs (v : Word) (s : State) : (s.withRes v).cs = s.cs := rfl
@[simp] theorem State.withRes_tx (v : Word) (s : State) : (s.withRes v).tx = s.tx := rfl
@[simp] theorem State.withRes_lineOut (v : Word) (s : State) : (s.withRes v).lineOut = s.lineOut := rfl
@[simp] theorem State.withRes_sqActive (v : Word) (s : State) : (s.withRes v).sqActive = s.sqActive := rfl
@[simp] theorem State.withRes_poll (v : Word) (s : State) : (s.withRes v).poll = s.poll := rfl
@[simp] theorem State.withRes_env (v : Word) (s : State) : (s.withRes v).env = s.env := rfl
@[simp] theorem State.withRes_params (v : Word) (s : State) : (s.withRes v).params = s.params := rfl
@[simp] theorem State.withRes_res (v : Word) (s : State) : (s.withRes v).out.res = some v := rfl
@[simp] theorem State.withRes_done (v : Word) (s : State) : (s.withRes v).out.done = s.out.done := rfl

@[simp] theorem State.setStatus_tx (st : Status) (s : State) : (s.setStatus st).tx = s.tx := rfl
@[simp] theorem State.setStatus_lineOut (st : Status) (s : State) : (s.setStatus st).lineOut = s.lineOut := rfl
@[simp] theorem State.setStatus_sqActive (st : Status) (s : State) : (s.setStatus st).sqActive = s.sqActive := rfl
@[simp] theorem State.setStatus_out (st : Status) (s : State) : (s.setStatus st).out = s.out := rfl
@[simp] theorem State.setStatus_poll (st : Status) (s : State) : (s.setStatus st).poll = s.poll := rfl
@[simp] theorem State.setStatus_env (st : Status) (s : State) : (s.setStatus st).env = s.env := rfl
@[simp] theorem State.setStatus_params (st : Status) (s : State) : (s.setStatus st).params = s.params := rfl
@[simp] theorem State.setStatus_cs (st : Status) (s : State) : (s.setStatus st).cs = { s.cs with status := st } := rfl

@[simp] theorem State.stamp_tx (st : Status) (s : State) : (s.stamp st).tx = s.tx := rfl
@[simp] theorem State.stamp_lineOut (st : Status) (s : State) : (s.stamp st).lineOut = s.lineOut := rfl
@[simp] theorem State.stamp_sqActive (st : Status) (s : State) : (s.stamp st).sqActive = s.sqActive := rfl
@[simp] theorem State.stamp_out (st : Status) (s : State) : (s.stamp st).out = s.out := rfl
@[simp] theorem State.stamp_poll (st : Status) (s : State) : (s.stamp st).poll = s.poll := rfl
@[simp] theorem State.stamp_env (st : Status) (s : State) : (s.stamp st).env = s.env := rfl
@[simp] theorem State.stamp_params (st : Status) (s : State) : (s.stamp st).params = s.params := rfl
@[simp] theorem State.stamp_cs (st : Status) (s : State) :
    (s.stamp st).cs = { s.cs with status := st, lastEdgeTimestamp := s.now } := rfl

@[simp] theorem State.complete_tx (r : RespStatus) (s : State) : (s.complete r).tx = s.tx := rfl
@[simp] theorem State.complete_lineOut (r : RespStatus) (s : State) : (s.complete r).lineOut = s.lineOut := rfl
@[simp] theorem State.complete_sqActive (r : RespStatus) (s : State) : (s.complete r).sqActive = s.sqActive := rfl
@[simp] theorem State.complete_poll (r : RespStatus) (s : State) : (s.complete r).poll = s.poll := rfl
@[simp] theorem State.complete_env (r : RespStatus) (s : State) : (s.complete r).env = s.env := rfl
@[simp] theorem State.complete_params (r : RespStatus) (s : State) : (s.complete r).params = s.params := rfl
@[simp] theorem State.complete_cs (r : RespStatus) (s : State) :
    (s.complete r).cs =
      { s.cs with status := if r = .timeout then .ready else .delay, lastResponseStatus := r } := rfl
@[simp] theorem State.complete_res (r : RespStatus) (s : State) : (s.complete r).out.res = s.out.res := rfl
@[simp] theorem State.complete_done (r : RespStatus) (s : State) :
    (s.complete r).out.done = some { frame := s.cs.pendingFrame, status := r } := rfl

@[simp] theorem State.freeEngine_cs (s : State) : (s.freeEngine).cs = s.cs := rfl
@[simp] theorem State.freeEngine_lineOut (s : State) : (s.freeEngine).lineOut = s.lineOut := rfl
@[simp] theorem State.freeEngine_sqActive (s : State) : (s.freeEngine).sqActive = s.sqActive := rfl
@[simp] theorem State.freeEngine_out (s : State) : (s.freeEngine).out = s.out := rfl
@[simp] theorem State.freeEngine_poll (s : State) : (s.freeEngine).poll = s.poll := rfl
@[simp] theorem State.freeEngine_env (s : State) : (s.freeEngine).env = s.env := rfl
@[simp] theorem State.freeEngine_params (s : State) : (s.freeEngine).params = s.params := rfl
@[simp] theorem State.freeEngine_tx (s : State) : s.freeEngine.tx = { s.tx with busy := false } := rfl

@[simp] theorem State.pollAfter_cs (s : State) : (s.pollAfter).cs = s.cs := rfl
@[simp] theorem State.pollAfter_tx (s : State) : (s.pollAfter).tx = s.tx := rfl
@[simp] theorem State.pollAfter_lineOut (s : State) : (s.pollAfter).lineOut = s.lineOut := rfl
@[simp] theorem State.pollAfter_sqActive (s : State) : (s.pollAfter).sqActive = s.sqActive := rfl
@[simp] theorem State.pollAfter_out (s : State) : (s.pollAfter).out = s.out := rfl
@[simp] theorem State.pollAfter_env (s : State) : (s.pollAfter).env = s.env := rfl
@[simp] theorem State.pollAfter_params (s : State) : (s.pollAfter).params = s.params := rfl
@[simp] theorem State.pollAfter_poll (s : State) : s.pollAfter.poll = { s.poll with after := s.env.clock } := rfl

@[simp] theorem State.pollNext_cs (s : State) : (s.pollNext).cs = s.cs := rfl
@[simp] theorem State.pollNext_tx (s : State) : (s.pollNext).tx = s.tx := rfl
@[simp] theorem State.pollNext_lineOut (s : State) : (s.pollNext).lineOut = s.lineOut := rfl
@[simp] theorem State.pollNext_sqActive (s : State) : (s.pollNext).sqActive = s.sqActive := rfl
@[simp] theorem State.pollNext_out (s : State) : (s.pollNext).out = s.out := rfl
@[simp] theorem State.pollNext_env (s : State) : (s.pollNext).env = s.env := rfl
@[simp] theorem State.pollNext_params (s : State) : (s.pollNext).params = s.params := rfl
@[simp] theorem State.pollNext_poll (s : State) :
    s.pollNext.poll = { s.poll with after := s.env.clock, count := s.poll.count + 1 } := rfl

@[simp] theorem State.setLineIn_cs (l : Level) (s : State) : (s.setLineIn l).cs = s.cs := rfl
@[simp] theorem State.setLineIn_tx (l : Level) (s : State) : (s.setLineIn l).tx = s.tx := rfl
@[simp] theorem State.setLineIn_lineOut (l : Level) (s : State) : (s.setLineIn l).lineOut = s.lineOut := rfl
@[simp] theorem State.setLineIn_sqActive (l : Level) (s : State) : (s.setLineIn l).sqActive = s.sqActive := rfl
@[simp] theorem State.setLineIn_out (l : Level) (s : State) : (s.setLineIn l).out = s.out := rfl
@[simp] theorem State.setLineIn_poll (l : Level) (s : State) : (s.setLineIn l).poll = s.poll := rfl
@[simp] theorem State.setLineIn_params (l : Level) (s : State) : (s.setLineIn l).params = s.params := rfl
@[simp] theorem State.setLineIn_env (l : Level) (s : State) : (s.setLineIn l).env = { s.env with lineIn := l } := rfl

@[simp] theorem State.arriveWave_cs (ls : List Level) (s : State) : (s.arriveWave ls).cs = s.cs := rfl
@[simp] theorem State.arriveWave_tx (ls : List Level) (s : State) : (s.arriveWave ls).tx = s.tx := rfl
@[simp] theorem State.arriveWave_lineOut (ls : List Level) (s : State) : (s.arriveWave ls).lineOut = s.lineOut := rfl
@[simp] theorem State.arriveWave_sqActive (ls : List Level) (s : State) : (s.arriveWave ls).sqActive = s.sqActive := rfl
@[simp] theorem State.arriveWave_out (ls : List Level) (s : State) : (s.arriveWave ls).out = s.out := rfl
@[simp] theorem State.arriveWave_poll (ls : List Level) (s : State) : (s.arriveWave ls).poll = s.poll := rfl
@[simp] theorem State.arriveWave_params (ls : List Level) (s : State) : (s.arriveWave ls).params = s.params := rfl
@[simp] theorem State.arriveWave_env (ls : List Level) (s : State) :
    (s.arriveWave ls).env = { s.env with
      lineScript := insertArrivals (transitions s.env.lineIn s.env.clock ls) s.env.lineScript } := rfl

@[simp] theorem State.arriveWord_cs (w : TxWord) (s : State) : (s.arriveWord w).cs = s.cs := rfl
@[simp] theorem State.arriveWord_tx (w : TxWord) (s : State) : (s.arriveWord w).tx = s.tx := rfl
@[simp] theorem State.arriveWord_lineOut (w : TxWord) (s : State) : (s.arriveWord w).lineOut = s.lineOut := rfl
@[simp] theorem State.arriveWord_sqActive (w : TxWord) (s : State) : (s.arriveWord w).sqActive = s.sqActive := rfl
@[simp] theorem State.arriveWord_out (w : TxWord) (s : State) : (s.arriveWord w).out = s.out := rfl
@[simp] theorem State.arriveWord_poll (w : TxWord) (s : State) : (s.arriveWord w).poll = s.poll := rfl
@[simp] theorem State.arriveWord_params (w : TxWord) (s : State) : (s.arriveWord w).params = s.params := rfl

/-! ## The line -/

@[simp] theorem State.lineWrite_cs (l : Level) (s : State) : (s.lineWrite l).cs = s.cs := by
  unfold State.lineWrite; split <;> rfl
@[simp] theorem State.lineWrite_tx (l : Level) (s : State) : (s.lineWrite l).tx = s.tx := by
  unfold State.lineWrite; split <;> rfl
@[simp] theorem State.lineWrite_sqActive (l : Level) (s : State) : (s.lineWrite l).sqActive = s.sqActive := by
  unfold State.lineWrite; split <;> rfl
@[simp] theorem State.lineWrite_out (l : Level) (s : State) : (s.lineWrite l).out = s.out := by
  unfold State.lineWrite; split <;> rfl
@[simp] theorem State.lineWrite_poll (l : Level) (s : State) : (s.lineWrite l).poll = s.poll := by
  unfold State.lineWrite; split <;> rfl
@[simp] theorem State.lineWrite_params (l : Level) (s : State) : (s.lineWrite l).params = s.params := by
  unfold State.lineWrite; split <;> rfl
@[simp] theorem State.lineWrite_lineOut (l : Level) (s : State) : (s.lineWrite l).lineOut = l := by
  unfold State.lineWrite; split <;> simp_all
@[simp] theorem State.lineWrite_clock (l : Level) (s : State) : (s.lineWrite l).env.clock = s.env.clock := by
  unfold State.lineWrite; split <;> rfl
@[simp] theorem State.lineWrite_lineIn (l : Level) (s : State) : (s.lineWrite l).env.lineIn = s.env.lineIn := by
  unfold State.lineWrite; split <;> rfl
@[simp] theorem State.lineWrite_roleStrap (l : Level) (s : State) : (s.lineWrite l).env.roleStrap = s.env.roleStrap := by
  unfold State.lineWrite; split <;> rfl
@[simp] theorem State.lineWrite_rstScript (l : Level) (s : State) : (s.lineWrite l).env.rstScript = s.env.rstScript := by
  unfold State.lineWrite; split <;> rfl
@[simp] theorem State.lineWrite_hostScript (l : Level) (s : State) : (s.lineWrite l).env.hostScript = s.env.hostScript := by
  unfold State.lineWrite; split <;> rfl

/-- Without coupling (U17) driving the line changes nothing but the line. -/
theorem State.lineWrite_uncoupled (l : Level) (s : State) (h : s.params.coupled = false) :
    s.lineWrite l = { s with lineOut := l } := by
  unfold State.lineWrite
  split
  · next hl => subst hl; rfl
  · simp [h]

/-! ## The engine -/

@[simp] theorem State.txBegin_cs (f : Frame) (k : TxKind) (s : State) : (s.txBegin f k).cs = s.cs := by
  simp [State.txBegin]
@[simp] theorem State.txBegin_sqActive (f : Frame) (k : TxKind) (s : State) : (s.txBegin f k).sqActive = s.sqActive := by
  simp [State.txBegin]
@[simp] theorem State.txBegin_out (f : Frame) (k : TxKind) (s : State) : (s.txBegin f k).out = s.out := by
  simp [State.txBegin]
@[simp] theorem State.txBegin_poll (f : Frame) (k : TxKind) (s : State) : (s.txBegin f k).poll = s.poll := by
  simp [State.txBegin]
@[simp] theorem State.txBegin_params (f : Frame) (k : TxKind) (s : State) : (s.txBegin f k).params = s.params := by
  simp [State.txBegin]
@[simp] theorem State.txBegin_tx (f : Frame) (k : TxKind) (s : State) :
    (s.txBegin f k).tx = { busy := true, kind := k, word := frameWord f, phase := 0, t0 := s.now } := by
  simp [State.txBegin]
@[simp] theorem State.txBegin_lineOut (f : Frame) (k : TxKind) (s : State) :
    (s.txBegin f k).lineOut = txLevel (frameWord f) 0 := by
  simp [State.txBegin]
@[simp] theorem State.txBegin_clock (f : Frame) (k : TxKind) (s : State) :
    (s.txBegin f k).env.clock = s.env.clock := by
  simp [State.txBegin]

@[simp] theorem State.initHold_cs (s : State) : (s.initHold).cs = s.cs := by
  simp [State.initHold]
@[simp] theorem State.initHold_sqActive (s : State) : (s.initHold).sqActive = s.sqActive := by
  simp [State.initHold]
@[simp] theorem State.initHold_out (s : State) : (s.initHold).out = s.out := by
  simp [State.initHold]
@[simp] theorem State.initHold_poll (s : State) : (s.initHold).poll = s.poll := by
  simp [State.initHold]
@[simp] theorem State.initHold_params (s : State) : (s.initHold).params = s.params := by
  simp [State.initHold]
@[simp] theorem State.initHold_tx (s : State) :
    s.initHold.tx = { s.tx with busy := true, kind := .init, t0 := s.now } := rfl
@[simp] theorem State.initHold_lineOut (s : State) : s.initHold.lineOut = .idle := by
  simp [State.initHold]
@[simp] theorem State.initHold_clock (s : State) : s.initHold.env.clock = s.env.clock := by
  simp [State.initHold]

@[simp] theorem State.nextPhase_cs (s : State) : (s.nextPhase).cs = s.cs := by
  simp [State.nextPhase]
@[simp] theorem State.nextPhase_sqActive (s : State) : (s.nextPhase).sqActive = s.sqActive := by
  simp [State.nextPhase]
@[simp] theorem State.nextPhase_out (s : State) : (s.nextPhase).out = s.out := by
  simp [State.nextPhase]
@[simp] theorem State.nextPhase_poll (s : State) : (s.nextPhase).poll = s.poll := by
  simp [State.nextPhase]
@[simp] theorem State.nextPhase_params (s : State) : (s.nextPhase).params = s.params := by
  simp [State.nextPhase]
@[simp] theorem State.nextPhase_tx (s : State) : s.nextPhase.tx = { s.tx with phase := s.tx.phase + 1 } := by
  simp [State.nextPhase]
@[simp] theorem State.nextPhase_lineOut (s : State) :
    s.nextPhase.lineOut = txLevel s.tx.word (s.tx.phase.toNat + 1) := by
  simp [State.nextPhase]
@[simp] theorem State.nextPhase_clock (s : State) : s.nextPhase.env.clock = s.env.clock := by
  simp [State.nextPhase]

/-! ## RESET -/

@[simp] theorem State.toReset_cs (s : State) : s.toReset.cs = Channel.reset s.env.roleStrap := rfl
@[simp] theorem State.toReset_tx (s : State) : s.toReset.tx = Engine.reset := rfl
@[simp] theorem State.toReset_sqActive (s : State) : s.toReset.sqActive = false := rfl
@[simp] theorem State.toReset_out (s : State) : s.toReset.out = { res := none, done := none } := rfl
@[simp] theorem State.toReset_lineOut (s : State) : s.toReset.lineOut = .idle := by simp [State.toReset]
@[simp] theorem State.toReset_poll (s : State) : s.toReset.poll = s.poll := by simp [State.toReset]
@[simp] theorem State.toReset_params (s : State) : s.toReset.params = s.params := by simp [State.toReset]
@[simp] theorem State.toReset_clock (s : State) : s.toReset.env.clock = s.env.clock := by simp [State.toReset]

/-! ## Taking an event -/

@[simp] theorem State.advance_cs (c : Candidate) (s : State) : (s.advance c).cs = s.cs := by
  unfold State.advance; split <;> rfl
@[simp] theorem State.advance_tx (c : Candidate) (s : State) : (s.advance c).tx = s.tx := by
  unfold State.advance; split <;> rfl
@[simp] theorem State.advance_lineOut (c : Candidate) (s : State) : (s.advance c).lineOut = s.lineOut := by
  unfold State.advance; split <;> rfl
@[simp] theorem State.advance_sqActive (c : Candidate) (s : State) : (s.advance c).sqActive = s.sqActive := by
  unfold State.advance; split <;> rfl
@[simp] theorem State.advance_out (c : Candidate) (s : State) : (s.advance c).out = s.out := by
  unfold State.advance; split <;> rfl
@[simp] theorem State.advance_poll (c : Candidate) (s : State) : (s.advance c).poll = s.poll := by
  unfold State.advance; split <;> rfl
@[simp] theorem State.advance_params (c : Candidate) (s : State) : (s.advance c).params = s.params := by
  unfold State.advance; split <;> rfl
@[simp] theorem State.advance_clock (c : Candidate) (s : State) : (s.advance c).env.clock = c.time := by
  unfold State.advance; split <;> rfl
@[simp] theorem State.advance_lineIn (c : Candidate) (s : State) : (s.advance c).env.lineIn = s.env.lineIn := by
  unfold State.advance; split <;> rfl

end Sys2Proof.Machine
end

