-- ==== Sys2Proof/Certificates/Slice0/Obligations.lean ====
section
/-! DEFINITION. The statements for the provers, from the numbered rules of spec/. OBLIGATIONS.json lists them. Where a
statement rests on a choice of the model and not on a rule, its docstring says so and names the log entry. -/

open Sys2Proof Sys2Proof.Machine

/-! ## Encodings -/

/-- Words written out from the encodings: `OP` in bits 52 to 48 (R79, R80), `MSG_TYPE` in bits 30 to 28 (R71), the
symbols (R73), the transmission word (R74). That a table word of whole bytes is read by its bit count, and so the byte
1 as `SYMBOL_BIT0` and not as `EDGE` to `ACTIVE`, is no rule's: it is the model's choice (log 19). -/
def Obligations.TableWordsDecode : Prop :=
  decodeTableWord 56 0x15000000000000 = some .isReady ∧
  decodeTableWord 56 0x0D156090013C80 = some (.modifyMsgData 0x90013C80 0x1560) ∧
  decodeTableWord 56 0x0100009F013C80 = some (.buildRequest .writeData 1 0x3C80) ∧
  decodeTableWord 56 0x12000080190000 = some (.sendRequestAsync 0x80190000) ∧
  decodeTableWord 56 0x1F000000000000 = some .reservedCmd1F ∧
  decodeTableWord 32 0xC0192D40 = some (.frameReadAck 0xC0192D40) ∧
  decodeTableWord 8 2 = some .symbolBit1 ∧
  decodeTableWord 8 1 = some .symbolBit0 ∧
  decodeTableWord 40 0x300320001 = some (.txWord 0x300320001)

/-- Decoding an encoded well-formed instruction gives it back: all 49 rows, every operand (R71, R73, R74, R79, R80). -/
def Obligations.DecodeOfEncode : Prop :=
  ∀ i : Instr, i.wellFormed = true → decode (encode i) = .ok i

/-- The decoder answers only well-formed instructions: a frame row has its own type, a transmission word its start
and stop symbols (R71, R74). -/
def Obligations.DecodedIsWellFormed : Prop :=
  ∀ (p : Packet) (i : Instr), decode p = .ok i → i.wellFormed = true

/-- Outside the command port every word has one meaning: encoding what was decoded gives the word back (R70 to R74,
R82). -/
def Obligations.EncodeOfDecodeOnTheLine : Prop :=
  ∀ (p : Packet) (i : Instr), p.wire ≠ .cmd → decode p = .ok i → encode i = p

/-- The command word `{OP, B, A}` and its codes (R79, R80): every code, with the operands its form of `A` takes. "A field
the command does not use is ignored, whatever it holds": `B` but in `MODIFY_MSG_DATA`, `A[31]` and `A[27:24]` of the
builders, `A` and `B` of a code without operands. -/
def Obligations.CommandWordsDecodeByTheirCode : Prop :=
  ∀ (b : BitVec 16) (a : Word),
    let word (op : BitVec 5) : CmdWord := op ++ b ++ a
    let type := MsgType.ofCode (BitVec.ofNat 3 (a.toNat / 2 ^ 28))
    let id := BitVec.ofNat 8 (a.toNat / 2 ^ 16)
    let data := BitVec.ofNat 16 a.toNat
    decode ⟨.cmd, word 0x00⟩ = .ok (.parity a) ∧
    decode ⟨.cmd, word 0x01⟩ = .ok (.buildRequest type id data) ∧
    decode ⟨.cmd, word 0x02⟩ = .ok (.buildResponse type id data) ∧
    decode ⟨.cmd, word 0x03⟩ = .ok (.getMessageType a) ∧
    decode ⟨.cmd, word 0x04⟩ = .ok (.getDataId a) ∧
    decode ⟨.cmd, word 0x05⟩ = .ok (.getUInt16 a) ∧
    decode ⟨.cmd, word 0x06⟩ = .ok (.getInt16 a) ∧
    decode ⟨.cmd, word 0x07⟩ = .ok (.getFloat a) ∧
    decode ⟨.cmd, word 0x08⟩ = .ok (.getUbUInt8 a) ∧
    decode ⟨.cmd, word 0x09⟩ = .ok (.getLbUInt8 a) ∧
    decode ⟨.cmd, word 0x0A⟩ = .ok (.temperatureToData a) ∧
    decode ⟨.cmd, word 0x0B⟩ = .ok (.isValidRequest a) ∧
    decode ⟨.cmd, word 0x0C⟩ = .ok (.isValidResponse a) ∧
    decode ⟨.cmd, word 0x0D⟩ = .ok (.modifyMsgData a b) ∧
    decode ⟨.cmd, word 0x10⟩ = .ok .initChannel ∧
    decode ⟨.cmd, word 0x11⟩ = .ok .tick ∧
    decode ⟨.cmd, word 0x12⟩ = .ok (.sendRequestAsync a) ∧
    decode ⟨.cmd, word 0x13⟩ = .ok (.sendRequest a) ∧
    decode ⟨.cmd, word 0x14⟩ = .ok (.sendResponse a) ∧
    decode ⟨.cmd, word 0x15⟩ = .ok .isReady ∧
    decode ⟨.cmd, word 0x16⟩ = .ok .getLastResponseStatus ∧
    (∀ op : BitVec 5, op = 0x0E ∨ op = 0x0F ∨ 0x17 ≤ op.toNat →
      ∃ i, decode ⟨.cmd, word op⟩ = .ok i ∧ reservedCodeOf i = some op)

/-! ## The step -/

/-- A step performs the instruction its next event's word decodes to, in one atomic event (R10, R56, R62); a word
that is no encoding is refused, and where no event is to come nothing happens but the strobes going low (log 20). -/
def Obligations.StepRunsTheDecodedEvent : Prop :=
  ∀ s : State,
    (∀ c i, s.nextEvent = some c → decode (s.eventPacket c.source) = .ok i → step s = exec i (s.advance c)) ∧
    (∀ c e, s.nextEvent = some c → decode (s.eventPacket c.source) = .error e →
      step s = .refused (.undecodable e)) ∧
    (s.nextEvent = none → step s = .next s.openEvent)

/-- A table word that is placed is what the very next step runs, with the registers as they were (log 1: the host's
placing of a word, the model's choice). -/
def Obligations.PlacedWordRunsNext : Prop :=
  ∀ (s : State) (nbits w : Nat) (i : Instr), decodeTableWord nbits w = some i →
    ∃ u : State, step (s.withFetchWord nbits w) = exec i u ∧
      u.cs = s.cs ∧ u.lineOut = s.lineOut ∧ u.out = s.out ∧ u.poll = s.poll ∧ u.params = s.params ∧
      u.env.clock = s.env.clock ∧ u.env.lineIn = s.env.lineIn ∧ u.env.hostScript = s.env.hostScript ∧
      (s.cmdReady = true → u.tx = s.tx ∧ u.sqActive = s.sqActive)

/-- What can come next: the earliest event, and at one time `EDGE`, then the engine, then the command port (R63, R211).
Those rules place neither `RESET` nor a tick of the `SEND_REQUEST` sequencer: that `RESET` is first (log 5) and that a
tick is behind an `EDGE` (log 28) is the model's choice. -/
def Obligations.CoincidentEventsAreOrdered : Prop :=
  let rank : Source → Nat
    | .rst => 0
    | .line => 1
    | .engine => 2
    | .sequencer => 3
    | .host => 3
  ∀ (s : State) (c d : Candidate), s.nextEvent = some c → d ∈ s.candidates →
    c.time < d.time ∨ (c.time = d.time ∧ rank c.source ≤ rank d.source)

/-- Along a run true time never decreases (R10). -/
def Obligations.ClockNeverRunsBack : Prop :=
  ∀ s t : State, step s = .next t → s.env.clock ≤ t.env.clock

/-- A step stops for two reasons only, a reserved command code (R85) and a line unit that is no encoding (R73, R74):
no command reaches a port that is not ready (R186) and no engine event comes where its rule does not enable it. -/
def Obligations.StepStopsOnlyOnReservedOrUndecodable : Prop :=
  ∀ s : State,
    (∃ t, step s = .next t) ∨
    (∃ k, step s = .refused (.reservedCommand k)) ∨
    (∃ e, step s = .refused (.undecodable e))

/-- A command waits while `cmd_ready` is 0: it is not taken from HOST, and given to `exec` there it is refused
(R186, R139; the refusal is the model's form of "not accepted", log 11). -/
def Obligations.BusyPortAcceptsNothing : Prop :=
  ∀ s : State, s.cmdReady = false →
    (∀ t, step s = .next t → t.env.hostScript = s.env.hostScript) ∧
    (∀ i : Instr, isCodec i = true → exec i s = .refused .portNotReady) ∧
    (∀ i : Instr, isController i = true → (i = .tick → s.sequencerEnabled = false) →
      exec i s = .refused .portNotReady)

/-! ## Frame Codec: results, with the frame (R100: nothing but the result port is written) -/

/-- `PARITY` (R101): code 0x00; whether the number of set bits is odd. -/
def Obligations.ParityAnswersOddCount : Prop :=
  ∀ (f : Frame) (b : BitVec 16) (s : State), s.cmdReady = true →
    decodeCommand ((0x00 : BitVec 5) ++ b ++ f) = .parity f ∧
    exec (.parity f) s =
      .next { s with out := { res := some (if onesOf f % 2 = 1 then 1 else 0), done := none } }

/-- `BUILD_REQUEST` and `BUILD_RESPONSE` (R102, R103): codes 0x01 and 0x02, `A[31]` and `A[27:24]` ignored; type,
data-ID and data in their places, spare bits 0, and the parity bit such that the whole frame has an even number of set
bits. -/
def Obligations.BuildersAssembleEvenFrames : Prop :=
  ∀ (t : MsgType) (id : BitVec 8) (data : BitVec 16) (b : BitVec 16) (x : BitVec 1) (y : BitVec 4) (s : State),
    s.cmdReady = true →
    decodeCommand ((0x01 : BitVec 5) ++ b ++ (x ++ t.code ++ y ++ id ++ data)) = .buildRequest t id data ∧
    decodeCommand ((0x02 : BitVec 5) ++ b ++ (x ++ t.code ++ y ++ id ++ data)) = .buildResponse t id data ∧
    ∃ r : Frame,
      exec (.buildRequest t id data) s = .next { s with out := { res := some r, done := none } } ∧
      exec (.buildResponse t id data) s = .next { s with out := { res := some r, done := none } } ∧
      r.toNat % 2 ^ 31 = t.code.toNat * 2 ^ 28 + id.toNat * 2 ^ 16 + data.toNat ∧
      onesOf r % 2 = 0

/-- The unsigned field readers (R104, R105, R106, R109, R110), with their codes. -/
def Obligations.FieldReadersAnswerTheirBits : Prop :=
  ∀ (f : Frame) (b : BitVec 16) (s : State), s.cmdReady = true →
    decodeCommand ((0x03 : BitVec 5) ++ b ++ f) = .getMessageType f ∧
    decodeCommand ((0x04 : BitVec 5) ++ b ++ f) = .getDataId f ∧
    decodeCommand ((0x05 : BitVec 5) ++ b ++ f) = .getUInt16 f ∧
    decodeCommand ((0x08 : BitVec 5) ++ b ++ f) = .getUbUInt8 f ∧
    decodeCommand ((0x09 : BitVec 5) ++ b ++ f) = .getLbUInt8 f ∧
    let answer (n : Nat) : State := { s with out := { res := some (BitVec.ofNat 32 n), done := none } }
    exec (.getMessageType f) s = .next (answer (f.toNat / 2 ^ 28 % 8)) ∧
    exec (.getDataId f) s = .next (answer (f.toNat / 2 ^ 16 % 256)) ∧
    exec (.getUInt16 f) s = .next (answer (f.toNat % 65536)) ∧
    exec (.getUbUInt8 f) s = .next (answer (f.toNat / 256 % 256)) ∧
    exec (.getLbUInt8 f) s = .next (answer (f.toNat % 256))

/-- `GET_INT16` (R107) and `GET_FLOAT` (R108), codes 0x06 and 0x07: the data value as two's complement, sign-extended. -/
def Obligations.SignedReadersAnswerTwosComplement : Prop :=
  ∀ (f : Frame) (b : BitVec 16) (s : State), s.cmdReady = true →
    decodeCommand ((0x06 : BitVec 5) ++ b ++ f) = .getInt16 f ∧
    decodeCommand ((0x07 : BitVec 5) ++ b ++ f) = .getFloat f ∧
    let d := f.toNat % 65536
    let raw : Int := if d < 32768 then (d : Int) else (d : Int) - 65536
    exec (.getInt16 f) s = .next { s with out := { res := some (BitVec.ofInt 32 raw), done := none } } ∧
    exec (.getFloat f) s = .next { s with out := { res := some (BitVec.ofInt 32 raw), done := none } }

/-- `TEMPERATURE_TO_DATA` (R111), code 0x0A, for `x = signed(A) / 2^n`: below 0 it clamps to 0, above 100 to 25600,
and between it is the floor of `256 x`. The default has `n` = 16. -/
def Obligations.TemperatureClampsAndTruncates : Prop :=
  ∀ (a : Word) (b : BitVec 16) (n : Nat) (s : State), s.cmdReady = true → s.params.tempIn = .fixed n →
    decodeCommand ((0x0A : BitVec 5) ++ b ++ a) = .temperatureToData a ∧
    ∃ r : Word, exec (.temperatureToData a) s = .next { s with out := { res := some r, done := none } } ∧
      (a.toInt ≤ 0 → r.toNat = 0) ∧
      (100 * 2 ^ n ≤ a.toInt → r.toNat = 25600) ∧
      (0 ≤ a.toInt → a.toInt ≤ 100 * 2 ^ n →
        (r.toNat : Int) * 2 ^ n ≤ a.toInt * 256 ∧ a.toInt * 256 < ((r.toNat : Int) + 1) * 2 ^ n)

/-- `IS_VALID_REQUEST` (R112) and `IS_VALID_RESPONSE` (R113), codes 0x0B and 0x0C: the type is in {0,1,2}, in {4,5,6,7};
nothing else of the frame is examined. -/
def Obligations.ValidityIsByTypeOnly : Prop :=
  ∀ (f : Frame) (b : BitVec 16) (s : State), s.cmdReady = true →
    let t := f.toNat / 2 ^ 28 % 8
    decodeCommand ((0x0B : BitVec 5) ++ b ++ f) = .isValidRequest f ∧
    decodeCommand ((0x0C : BitVec 5) ++ b ++ f) = .isValidResponse f ∧
    exec (.isValidRequest f) s =
      .next { s with out := { res := some (if t = 0 ∨ t = 1 ∨ t = 2 then 1 else 0), done := none } } ∧
    exec (.isValidResponse f) s =
      .next { s with out := { res := some (if t = 4 ∨ t = 5 ∨ t = 6 ∨ t = 7 then 1 else 0), done := none } }

/-- `MODIFY_MSG_DATA` (R114), code 0x0D with the new data in `B`: bits 30 to 16 kept, the data replaced, an even
number of set bits. -/
def Obligations.ModifyKeepsTypeSpareAndId : Prop :=
  ∀ (f : Frame) (data : BitVec 16) (s : State), s.cmdReady = true →
    decodeCommand ((0x0D : BitVec 5) ++ data ++ f) = .modifyMsgData f data ∧
    ∃ r : Frame,
      exec (.modifyMsgData f data) s = .next { s with out := { res := some r, done := none } } ∧
      r.toNat % 2 ^ 31 = f.toNat / 2 ^ 16 % 2 ^ 15 * 2 ^ 16 + data.toNat ∧
      onesOf r % 2 = 0

/-- Law (a) of R116: the fields of a built frame are what it was built from, and its parity passes. -/
def Obligations.BuiltFramesReadBack : Prop :=
  ∀ (t : MsgType) (id : BitVec 8) (data : BitVec 16) (s : State), s.cmdReady = true →
    ∃ r : Frame,
      exec (.buildRequest t id data) s = .next { s with out := { res := some r, done := none } } ∧
      exec (.getMessageType r) s =
        .next { s with out := { res := some (t.code.setWidth 32), done := none } } ∧
      exec (.getDataId r) s = .next { s with out := { res := some (id.setWidth 32), done := none } } ∧
      exec (.getUInt16 r) s = .next { s with out := { res := some (data.setWidth 32), done := none } } ∧
      exec (.parity r) s = .next { s with out := { res := some 0, done := none } }

/-- Law (c) of R116, in the default format: `0 <= x - GET_FLOAT(BUILD_RESPONSE(t, id, TEMPERATURE_TO_DATA(x))) < 1/256`
for `x = signed(A) / 65536` in [0, 100], both sides times 65536. -/
def Obligations.TemperatureRoundTripWithin256th : Prop :=
  ∀ (a : Word) (t : MsgType) (id : BitVec 8) (s : State), s.cmdReady = true → s.params.tempIn = .fixed 16 →
    0 ≤ a.toInt → a.toInt ≤ 6553600 →
    ∃ d f r : Word,
      exec (.temperatureToData a) s = .next { s with out := { res := some d, done := none } } ∧
      exec (.buildResponse t id (d.setWidth 16)) s = .next { s with out := { res := some f, done := none } } ∧
      exec (.getFloat f) s = .next { s with out := { res := some r, done := none } } ∧
      0 ≤ a.toInt - 256 * r.toInt ∧ a.toInt - 256 * r.toInt < 256

/-- Law (f) of R116: flipping one bit of a frame flips `PARITY`, flipping two leaves it. -/
def Obligations.OneFlippedBitFailsParity : Prop :=
  ∀ (f : Frame) (j k : Nat), j < 32 → k < 32 →
    let flip (g : Frame) (n : Nat) : Frame := g ^^^ BitVec.twoPow 32 n
    (parity (flip f j) = !parity f) ∧ (j ≠ k → parity (flip (flip f j) k) = parity f)

/-- Every codec command at a ready port writes the result port and nothing else, and its result does not depend on
the Channel State, the line or the clock (R100). -/
def Obligations.CodecIsPure : Prop :=
  ∀ (i : Instr) (s u : State), isCodec i = true → s.cmdReady = true → u.cmdReady = true → s.params = u.params →
    ∃ r : Word,
      exec i s = .next { s with out := { res := some r, done := none } } ∧
      exec i u = .next { u with out := { res := some r, done := none } }

/-! ## Reserved command codes -/

/-- "a command with a reserved code changes no state and its result is unspecified; a model refuses it" (R85). -/
def Obligations.ReservedCodesAreRefused : Prop :=
  ∀ (i : Instr) (k : BitVec 5) (s : State), reservedCodeOf i = some k → exec i s = .refused (.reservedCommand k)

/-! ## INITIALIZE, the hold, and RESET -/

/-- `INITIALIZE` step 1 (R171), which is `INIT_BEGIN` (R137): the line idle, the engine busy with the hold from now;
`CS` keeps its values. R137 has `INIT_BEGIN` inside the event that accepts `INITIALIZE` only: that one which comes by
itself, at a ready port, does the same is the model's reading (log 17). -/
def Obligations.InitializeStartsTheHold : Prop :=
  ∀ (i : Instr) (s : State), i = .initChannel ∨ i = .initBegin → s.cmdReady = true →
    exec i s = .next { s with
      tx := { s.tx with busy := true, kind := .init, t0 := s.env.clock % 2 ^ s.params.tsWidth }
      lineOut := .idle
      out := { res := none, done := none }
      env := s.echo .idle }

/-- `INIT_END` (R137, R171 step 3), 1,000,000 µs after the hold began: the engine free, the edge input enabled,
`CS.status` = `READY`, result 0. -/
def Obligations.HoldEndsReady : Prop :=
  ∀ s : State, s.tx.busy = true → s.tx.kind = .init →
    s.env.clock % 2 ^ s.params.tsWidth = (s.tx.t0 + 1000000) % 2 ^ s.params.tsWidth →
    exec .initEnd s = .next { s with
      cs := { s.cs with status := .ready, edgeEnable := true }
      tx := { s.tx with busy := false }
      out := { res := some 0, done := none } }

/-- `RESET` (R230, R36): every register that R36 gives a value is at it, the strap sampled, whatever went on is
abandoned without a result or a completion. That the environment's clock and lists, the parameters and `poll`, a field
of the model's own (log 8), are kept is the model's choice (log 5). -/
def Obligations.ResetPutsEveryRegister : Prop :=
  ∀ s : State, ∃ t, exec .reset s = .next t ∧
    t.cs = { status := .uninitialized, pendingFrame := 0, lastEdgeTimestamp := 0, receivedBitCount := 0,
             role := s.env.roleStrap, lastResponseStatus := .none, edgeEnable := false } ∧
    t.tx.busy = false ∧ t.sqActive = false ∧ t.lineOut = .idle ∧ t.out = { res := none, done := none } ∧
    t.env = s.echo .idle ∧ t.params = s.params ∧ t.poll = s.poll

/-- The state right after reset (R36, R231). The values R36 leaves open are not stated. -/
def Obligations.ResetStateIsAsTheTable : Prop :=
  State.reset.cs.status = .uninitialized ∧ State.reset.cs.pendingFrame = 0 ∧
  State.reset.cs.lastEdgeTimestamp = 0 ∧ State.reset.cs.receivedBitCount = 0 ∧
  State.reset.cs.role = State.reset.env.roleStrap ∧ State.reset.cs.lastResponseStatus = .none ∧
  State.reset.cs.edgeEnable = false ∧ State.reset.tx.busy = false ∧ State.reset.sqActive = false ∧
  State.reset.lineOut = .idle ∧ State.reset.cmdReady = true ∧
  State.reset.out = { res := none, done := none }

/-! ## TICK, as a command at a ready port -/

/-- `READY`: "nothing to do" (R173), whatever the elapsed time. -/
def Obligations.TickInReadyDoesNothing : Prop :=
  ∀ s : State, s.cmdReady = true → s.cs.status = .ready →
    exec .tick s = .next { s with out := { res := some 0, done := none } }

/-- The timeout (R174): from every status but `READY`, once more than 1,000,000 µs have elapsed. -/
def Obligations.TickTimesOut : Prop :=
  ∀ s : State, s.cmdReady = true → s.cs.status ≠ .ready → 1000000 < s.elapsed →
    exec .tick s = .next { s with
      cs := { s.cs with status := .ready, lastResponseStatus := .timeout }
      out := { res := some 0, done := some { frame := s.cs.pendingFrame, status := .timeout } } }

/-- `RESPONSE_INVALID` within 1,000,000 µs (R175). -/
def Obligations.TickReportsInvalidStart : Prop :=
  ∀ s : State, s.cmdReady = true → s.cs.status = .responseInvalid → s.elapsed ≤ 1000000 →
    exec .tick s = .next { s with
      cs := { s.cs with status := .delay, lastResponseStatus := .invalidStart }
      out := { res := some 0, done := some { frame := s.cs.pendingFrame, status := .invalidStart } } }

/-- `RESPONSE_READY` within 1,000,000 µs (R176, R177): parity first, then the type against the set of the direction:
responses where the map is `DIRECTIONAL` and the role `MASTER`, or neither is. -/
def Obligations.TickClassifiesTheFrame : Prop :=
  ∀ s : State, s.cmdReady = true → s.cs.status = .responseReady → s.elapsed ≤ 1000000 →
    let f := s.cs.pendingFrame
    let t := f.toNat / 2 ^ 28 % 8
    let wantsResponse : Bool := (s.params.rxMap == .directional) == (s.cs.role == .master)
    let c : RespStatus :=
      if onesOf f % 2 = 1 then .invalidParity
      else if (wantsResponse = true ∧ 4 ≤ t) ∨ (wantsResponse = false ∧ t ≤ 2) then .success
      else .invalidMessageType
    exec .tick s = .next { s with
      cs := { s.cs with status := .delay, lastResponseStatus := c }
      out := { res := some 0, done := some { frame := f, status := c } } }

/-- `DELAY` within 1,000,000 µs (R178): to `READY` once more than 100,000 µs have elapsed, else it stays; no
completion, the last response status unchanged. -/
def Obligations.TickEndsTheQuietPeriod : Prop :=
  ∀ s : State, s.cmdReady = true → s.cs.status = .delay → s.elapsed ≤ 1000000 →
    exec .tick s = .next { s with
      cs := { s.cs with status := if 100000 < s.elapsed then .ready else .delay }
      out := { res := some 0, done := none } }

/-- Any other status within 1,000,000 µs (R179): nothing. -/
def Obligations.TickElsewhereDoesNothing : Prop :=
  ∀ s : State, s.cmdReady = true → s.elapsed ≤ 1000000 →
    s.cs.status = .uninitialized ∨ s.cs.status = .sending ∨ s.cs.status = .awaitingResponse ∨
      s.cs.status = .receivedStartBit ∨ s.cs.status = .receiving →
    exec .tick s = .next { s with out := { res := some 0, done := none } }

/-- A tick of the `SEND_REQUEST` sequencer (R181 step 4) is that of the command, completions included, less the
command's result; in the first after which the status is `READY` the command ends with `CS.pendingFrame`. The fields
of `poll` are the model's own (log 8). -/
def Obligations.SequencerTickIsATick : Prop :=
  ∀ s u : State, s.sequencerEnabled = true → exec .tick { s with sqActive := false } = .next u →
    exec .tick s = .next { u with
      sqActive := decide (u.cs.status ≠ .ready)
      out := { u.out with res := if u.cs.status = .ready then some u.cs.pendingFrame else none }
      poll := { s.poll with after := s.env.clock, count := s.poll.count + 1 } }

/-! ## Send operations and queries -/

/-- An accepted `SEND_REQUEST_ASYNC` (R180 step 1) and `SEND_REQUEST` (R181 step 1): `SENDING`, the pending frame and
the last response status cleared, the transmission begun (R133) with its start bit; nothing else. -/
def Obligations.AcceptedRequestStartsSending : Prop :=
  ∀ (f : Frame) (s : State), s.cmdReady = true → s.cs.status = .ready →
    let begun : State := { s with
      cs := { s.cs with status := .sending, pendingFrame := 0, lastResponseStatus := .none }
      tx := { busy := true, kind := .request, word := (1 : BitVec 1) ++ f ++ (1 : BitVec 1), phase := 0,
              t0 := s.env.clock % 2 ^ s.params.tsWidth }
      lineOut := .active
      out := { res := none, done := none }
      env := s.echo .active }
    exec (.sendRequestAsync f) s = .next begun ∧
    exec (.sendRequest f) s = .next { begun with sqActive := true }

/-- A rejected request (R180, R181, R207): a false or zero result and no other change. -/
def Obligations.RequestRejectedUnlessReady : Prop :=
  ∀ (f : Frame) (s : State), s.cmdReady = true → s.cs.status ≠ .ready →
    exec (.sendRequestAsync f) s = .next { s with out := { res := some 0, done := none } } ∧
    exec (.sendRequest f) s = .next { s with out := { res := some 0, done := none } }

/-- `SEND_RESPONSE` step 1 (R182): accepted in any status and role, `CS` untouched. -/
def Obligations.ResponseSentFromAnyStatus : Prop :=
  ∀ (f : Frame) (s : State), s.cmdReady = true →
    exec (.sendResponse f) s = .next { s with
      tx := { busy := true, kind := .response, word := (1 : BitVec 1) ++ f ++ (1 : BitVec 1), phase := 0,
              t0 := s.env.clock % 2 ^ s.params.tsWidth }
      lineOut := .active
      out := { res := none, done := none }
      env := s.echo .active }

/-- `IS_READY` (R183) and `GET_LAST_RESPONSE_STATUS` (R184), codes 0x15 and 0x16, with the codes of R77. -/
def Obligations.QueriesAnswerTheRegisters : Prop :=
  ∀ (a : Word) (b : BitVec 16) (s : State), s.cmdReady = true →
    decodeCommand ((0x15 : BitVec 5) ++ b ++ a) = .isReady ∧
    decodeCommand ((0x16 : BitVec 5) ++ b ++ a) = .getLastResponseStatus ∧
    exec .isReady s =
      .next { s with out := { res := some (if s.cs.status = .ready then 1 else 0), done := none } } ∧
    exec .getLastResponseStatus s = .next { s with out := {
      res := some (match s.cs.lastResponseStatus with
        | .success => 0
        | .timeout => 1
        | .invalidStart => 2
        | .invalidParity => 3
        | .invalidMessageType => 4
        | .none => 5)
      done := none } }

/-! ## The transmit engine -/

/-- `TX_STEP` (R134): where it is enabled, at its time, the next phase and its level (R132): even phases carry the
symbol, odd phases its complement. -/
def Obligations.TxStepDrivesTheNextPhase : Prop :=
  ∀ s : State, s.tx.busy = true → s.tx.kind ≠ .init → s.tx.phase.toNat < 67 →
    s.env.clock % 2 ^ s.params.tsWidth = (s.tx.t0 + 500 * (s.tx.phase.toNat + 1)) % 2 ^ s.params.tsWidth →
    let p := s.tx.phase.toNat + 1
    let symbol := s.tx.word.getLsbD (33 - p / 2)
    let l : Level := if symbol = (p % 2 == 0) then .active else .idle
    exec .txStep s = .next { s with
      tx := { s.tx with phase := s.tx.phase + 1 }
      lineOut := l
      out := { res := none, done := none }
      env := s.echo l }

/-- `TX_END` of a request (R135, R180 step 3): the line idle, the engine free, `AWAITING_RESPONSE` with a fresh
timestamp; result 1 for `SEND_REQUEST_ASYNC`, and for `SEND_REQUEST` no result yet (R181). -/
def Obligations.RequestEndsAwaiting : Prop :=
  ∀ s : State, s.tx.busy = true → s.tx.kind = .request → s.tx.phase.toNat = 67 →
    s.env.clock % 2 ^ s.params.tsWidth = (s.tx.t0 + 34000) % 2 ^ s.params.tsWidth →
    exec .txEnd s = .next { s with
      cs := { s.cs with status := .awaitingResponse, lastEdgeTimestamp := s.env.clock % 2 ^ s.params.tsWidth }
      tx := { s.tx with busy := false }
      lineOut := .idle
      out := { res := if s.sqActive then none else some 1, done := none }
      poll := { s.poll with after := if s.sqActive then s.env.clock else s.poll.after }
      env := s.echo .idle }

/-- `TX_END` of a response (R135, R182 step 3): `READY` whatever the status was, result 1, no other field of `CS`. -/
def Obligations.ResponseEndsReady : Prop :=
  ∀ s : State, s.tx.busy = true → s.tx.kind = .response → s.tx.phase.toNat = 67 →
    s.env.clock % 2 ^ s.params.tsWidth = (s.tx.t0 + 34000) % 2 ^ s.params.tsWidth →
    exec .txEnd s = .next { s with
      cs := { s.cs with status := .ready }
      tx := { s.tx with busy := false }
      lineOut := .idle
      out := { res := some 1, done := none }
      env := s.echo .idle }

/-- A whole transmission (R131, R132, R136, R138): from a state in which one has just begun, the line active and the
word framed, the output not coupled into the input, nothing of the environment to come and a clock period above 500 µs,
the p-th step drives phase p at `500 p` µs, and the 68th ends it, 34,000 µs after it began, the line idle. -/
def Obligations.TransmissionIsTheWaveform : Prop :=
  ∀ s : State, s.tx.busy = true → s.tx.kind ≠ .init → s.tx.phase = 0 → isFramed s.tx.word = true →
    s.lineOut = .active → s.tx.t0 = s.env.clock % 2 ^ s.params.tsWidth → 500 < 2 ^ s.params.tsWidth →
    s.params.coupled = false → s.undisturbed →
    (∀ p, p ≤ 67 → ∃ t : State, Host.Core.run Sys2Proof.core p s = .next t ∧
      t.lineOut = txLevel s.tx.word p ∧ t.tx.phase.toNat = p ∧ t.tx.busy = true ∧
      t.env.clock = s.env.clock + 500 * p ∧ t.cs = s.cs) ∧
    (∃ t : State, Host.Core.run Sys2Proof.core 68 s = .next t ∧ t.lineOut = .idle ∧ t.tx.busy = false ∧
      t.env.clock = s.env.clock + 34000)

/-- No cancellation (R140): while the engine is busy, only its own steps and `RESET` write `TX.*` or `LINE_OUT`. -/
def Obligations.NothingCancelsATransmission : Prop :=
  ∀ (i : Instr) (s t : State), s.tx.busy = true → exec i s = .next t →
    i ≠ .reset → i ≠ .txStep → i ≠ .txEnd → i ≠ .initEnd → t.tx = s.tx ∧ t.lineOut = s.lineOut

/-! ## The receive table -/

/-- The gate (R152) and every other status (R159): an edge changes nothing but the level of the input line. -/
def Obligations.EdgeIgnoredElsewhere : Prop :=
  ∀ (l : Level) (s : State),
    s.cs.edgeEnable = false ∨ s.cs.status = .uninitialized ∨ s.cs.status = .delay ∨ s.cs.status = .sending ∨
      s.cs.status = .responseReady ∨ s.cs.status = .responseInvalid →
    exec (.edge l) s = .next { s with out := { res := none, done := none }, env := { s.env with lineIn := l } }

/-- `READY` (R153): a slave's edge to `ACTIVE` is a candidate start bit; any other is ignored. The source's words stop
at `AWAITING_RESPONSE`; that the event goes on to `RECEIVED_START_BIT` is the spec's own resolution (C2, D9): "the net
effect of the event is `CS.status <- RECEIVED_START_BIT`, `CS.lastEdgeTimestamp <- now`". -/
def Obligations.EdgeInReadyStartsASlave : Prop :=
  ∀ (l : Level) (s : State), s.cs.edgeEnable = true → s.cs.status = .ready →
    exec (.edge l) s = .next { s with
      cs := if s.cs.role = .slave ∧ l = .active then
          { s.cs with status := .receivedStartBit, lastEdgeTimestamp := s.env.clock % 2 ^ s.params.tsWidth }
        else s.cs
      out := { res := none, done := none }
      env := { s.env with lineIn := l } }

/-- `AWAITING_RESPONSE` (R154): to `ACTIVE` a candidate start bit, to `IDLE` invalid; the elapsed time is not
examined. -/
def Obligations.FirstEdgeDecidesTheStart : Prop :=
  ∀ (l : Level) (s : State), s.cs.edgeEnable = true → s.cs.status = .awaitingResponse →
    exec (.edge l) s = .next { s with
      cs := { s.cs with
        status := if l = .active then .receivedStartBit else .responseInvalid
        lastEdgeTimestamp := s.env.clock % 2 ^ s.params.tsWidth }
      out := { res := none, done := none }
      env := { s.env with lineIn := l } }

/-- `RECEIVED_START_BIT` (R155): under 750 µs and to `IDLE` confirms, anything else is invalid; the timestamp is
recorded in both. -/
def Obligations.StartBitConfirmedUnder750 : Prop :=
  ∀ (l : Level) (s : State), s.cs.edgeEnable = true → s.cs.status = .receivedStartBit →
    exec (.edge l) s = .next { s with
      cs := if s.elapsed < 750 ∧ l = .idle then
          { s.cs with status := .receiving, receivedBitCount := 0,
                      lastEdgeTimestamp := s.env.clock % 2 ^ s.params.tsWidth }
        else { s.cs with status := .responseInvalid, lastEdgeTimestamp := s.env.clock % 2 ^ s.params.tsWidth }
      out := { res := none, done := none }
      env := { s.env with lineIn := l } }

/-- `RECEIVING`: the filter (R156), a data bit, the complement of the level shifted in at the bottom (R157), and the
stop bit, its level not examined (R158). -/
def Obligations.ReceivingSamplesAfter750 : Prop :=
  ∀ (l : Level) (s : State), s.cs.edgeEnable = true → s.cs.status = .receiving →
    s.cs.receivedBitCount.toNat ≤ 32 →
    let bit : Nat := if l = .idle then 1 else 0
    exec (.edge l) s = .next { s with
      cs := if s.elapsed ≤ 750 then s.cs
        else if s.cs.receivedBitCount.toNat < 32 then
          { s.cs with
            pendingFrame := BitVec.ofNat 32 (s.cs.pendingFrame.toNat * 2 + bit)
            receivedBitCount := BitVec.ofNat 6 (s.cs.receivedBitCount.toNat + 1)
            lastEdgeTimestamp := s.env.clock % 2 ^ s.params.tsWidth }
        else { s.cs with status := .responseReady, lastEdgeTimestamp := s.env.clock % 2 ^ s.params.tsWidth }
      out := { res := none, done := none }
      env := { s.env with lineIn := l } }

/-- The frame of `EDGE` (R151), in every state: it always completes, and writes only the status, the pending frame,
the timestamp and the count; and the level the input line now has. -/
def Obligations.EdgeWritesFourFields : Prop :=
  ∀ (l : Level) (s : State), ∃ t, exec (.edge l) s = .next t ∧
    t.cs.role = s.cs.role ∧ t.cs.lastResponseStatus = s.cs.lastResponseStatus ∧
    t.cs.edgeEnable = s.cs.edgeEnable ∧ t.tx = s.tx ∧ t.lineOut = s.lineOut ∧ t.sqActive = s.sqActive ∧
    t.out = { res := none, done := none } ∧ t.poll = s.poll ∧ t.params = s.params ∧
    t.env = { s.env with lineIn := l }

/-- The transitions of a frame's transmission (R136): one at each half-bit phase whose level differs from the one
before, the line idle before the first. -/
def Obligations.FrameEdgesAreItsTransitions : Prop :=
  ∀ (f : Frame) (t0 : Nat), frameEdges f t0 =
    (List.range 68).filterMap (fun p =>
      let l := txLevel (frameWord f) p
      if (if p = 0 then l = .active else l ≠ txLevel (frameWord f) (p - 1)) then
        some ⟨t0 + 500 * p, .edge l⟩
      else none)

/-- What arrives on an idle line (log 7, the model's reading of the format rows): a frame's edges by any of its eight
rows, a transmission word's by its own, and a symbol's halves (R73, R74, R136); nothing else changes. -/
def Obligations.LineRowsBringTheirEdges : Prop :=
  ∀ (s : State), s.env.lineIn = .idle → s.env.lineScript = [] →
    let brings (es : List LineArrival) : State :=
      { s with out := { res := none, done := none }, env := { s.env with lineScript := es } }
    (∀ f : Frame,
      exec (.frameReadData f) s = .next (brings (frameEdges f s.env.clock)) ∧
      exec (.frameWriteData f) s = .next (brings (frameEdges f s.env.clock)) ∧
      exec (.frameInvalidData f) s = .next (brings (frameEdges f s.env.clock)) ∧
      exec (.frameReserved f) s = .next (brings (frameEdges f s.env.clock)) ∧
      exec (.frameReadAck f) s = .next (brings (frameEdges f s.env.clock)) ∧
      exec (.frameWriteAck f) s = .next (brings (frameEdges f s.env.clock)) ∧
      exec (.frameDataInvalid f) s = .next (brings (frameEdges f s.env.clock)) ∧
      exec (.frameUnknownDataId f) s = .next (brings (frameEdges f s.env.clock)) ∧
      exec (.txWord ((1 : BitVec 1) ++ f ++ (1 : BitVec 1))) s = .next (brings (frameEdges f s.env.clock))) ∧
    exec .symbolBit1 s = .next (brings [⟨s.env.clock, .edge .active⟩, ⟨s.env.clock + 500, .edge .idle⟩]) ∧
    exec .symbolBit0 s = .next (brings [⟨s.env.clock + 500, .edge .active⟩])

/-- What arrives on the line as a waveform leaves the block alone (log 7, the model's reading of the format rows): it
completes in every state, only the edges to come are written, and none of those there is lost. -/
def Obligations.LineRowsLeaveTheBlockAlone : Prop :=
  ∀ (i : Instr) (s : State), isLineFormat i = true →
    ∃ script : List LineArrival,
      exec i s = .next { s with
        out := { res := none, done := none }, env := { s.env with lineScript := script } } ∧
      ∀ a ∈ s.env.lineScript, a ∈ script

/-- Reception (R161): the edges of any frame's transmission, fed to a channel that waits for it with its edge input
enabled and a clock period above 1,000 µs, reproduce that frame with a count of 32 in `RESPONSE_READY`, the timestamp
that of the stop edge, whatever the pending frame held. -/
def Obligations.ReceptionReproducesTheFrame : Prop :=
  ∀ (f : Frame) (t0 : Nat) (s : State), s.cs.edgeEnable = true →
    s.cs.status = .awaitingResponse ∨ (s.cs.status = .ready ∧ s.cs.role = .slave) →
    1000 < 2 ^ s.params.tsWidth →
    ∃ t, feedEdges s (frameEdges f t0) = .next t ∧
      t.cs = { s.cs with
        status := .responseReady, pendingFrame := f, receivedBitCount := 32,
        lastEdgeTimestamp := (t0 + 33500) % 2 ^ s.params.tsWidth } ∧
      t.tx = s.tx ∧ t.lineOut = s.lineOut ∧ t.sqActive = s.sqActive

/-! ## Whole-machine rules -/

/-- "The completion is delivered only by `TICK`" (R213): with it the status goes to `READY` for `TIMEOUT` and to
`DELAY` otherwise, the last response status is the one delivered, never `NONE` (R206), and the frame is
`CS.pendingFrame`. -/
def Obligations.OnlyTickDelivers : Prop :=
  ∀ (i : Instr) (s t : State) (c : Completion), exec i s = .next t → t.out.done = some c →
    i = .tick ∧ c.frame = s.cs.pendingFrame ∧ t.cs.pendingFrame = s.cs.pendingFrame ∧
    t.cs.lastResponseStatus = c.status ∧ c.status ≠ .none ∧
    t.cs.status = (if c.status = .timeout then .ready else .delay)

/-- The writers of `CS.lastEdgeTimestamp` (R23): `EDGE` and the end of a request's transmission, which write the
time of the event; besides them only `RESET`. `TICK` never writes it. -/
def Obligations.TimestampWrittenOnlyByEdgeAndTxEnd : Prop :=
  ∀ (i : Instr) (s t : State), exec i s = .next t → t.cs.lastEdgeTimestamp ≠ s.cs.lastEdgeTimestamp →
    i = .reset ∨
    (t.cs.lastEdgeTimestamp = s.env.clock % 2 ^ s.params.tsWidth ∧
      ((∃ l, i = .edge l) ∨ (i = .txEnd ∧ s.tx.kind = .request)))

/-- Role and parameters (R25: "No rule writes it"; R8): `CS.role` changes at `RESET` only, to the strap; no event
writes a parameter or the strap. -/
def Obligations.RoleAndParametersAreFixed : Prop :=
  ∀ (i : Instr) (s t : State), exec i s = .next t →
    t.params = s.params ∧ t.env.roleStrap = s.env.roleStrap ∧
    t.cs.role = (if i = .reset then s.env.roleStrap else s.cs.role)

/-- The status graph (R185): every change of `CS.status` is one of its rows. -/
def Obligations.StatusChangesAreTheGraph : Prop :=
  ∀ (i : Instr) (s t : State), s.Inv → exec i s = .next t → t.cs.status ≠ s.cs.status →
    let a := s.cs.status
    let b := t.cs.status
    let el := s.elapsed
    (i = .reset ∧ b = .uninitialized) ∨
    (i = .initEnd ∧ b = .ready) ∨
    (((∃ f, i = .sendRequestAsync f) ∨ (∃ f, i = .sendRequest f)) ∧ a = .ready ∧ b = .sending) ∨
    (i = .txEnd ∧ s.tx.kind = .request ∧ a = .sending ∧ b = .awaitingResponse) ∨
    (i = .txEnd ∧ s.tx.kind = .response ∧ b = .ready) ∨
    (i = .edge .active ∧ a = .ready ∧ s.cs.role = .slave ∧ b = .receivedStartBit) ∨
    (i = .edge .active ∧ a = .awaitingResponse ∧ b = .receivedStartBit) ∨
    (i = .edge .idle ∧ a = .awaitingResponse ∧ b = .responseInvalid) ∨
    (i = .edge .idle ∧ a = .receivedStartBit ∧ el < 750 ∧ b = .receiving) ∨
    ((∃ l, i = .edge l ∧ ¬(el < 750 ∧ l = .idle)) ∧ a = .receivedStartBit ∧ b = .responseInvalid) ∨
    ((∃ l, i = .edge l) ∧ a = .receiving ∧ 750 < el ∧ s.cs.receivedBitCount = 32 ∧ b = .responseReady) ∨
    (i = .tick ∧ (a = .responseReady ∨ a = .responseInvalid) ∧ el ≤ 1000000 ∧ b = .delay) ∨
    (i = .tick ∧ a = .delay ∧ 100000 < el ∧ el ≤ 1000000 ∧ b = .ready) ∨
    (i = .tick ∧ a ≠ .ready ∧ 1000000 < el ∧ b = .ready)

/-- Elapsed time (R13): the modular difference, exact for a true interval shorter than `2^TS_WIDTH` (R240). -/
def Obligations.ElapsedIsTheModularDifference : Prop :=
  ∀ s : State,
    (s.elapsed : Int) = ((s.env.clock : Int) - s.cs.lastEdgeTimestamp) % (2 ^ s.params.tsWidth) ∧
    (∀ t, s.cs.lastEdgeTimestamp = t % 2 ^ s.params.tsWidth → t ≤ s.env.clock →
      s.env.clock - t < 2 ^ s.params.tsWidth → s.elapsed = s.env.clock - t)

/-- The invariant holds right after reset. -/
def Obligations.InvariantAtReset : Prop := State.reset.Inv

/-- The invariant of the registers (R21, R24, R29, R132, R152, R181, R185; Sys2Proof/Safety.lean) is kept by every
step, from every state that has it. -/
def Obligations.InvariantKeptByEveryStep : Prop :=
  ∀ s t : State, s.Inv → step s = .next t → t.Inv
end

