-- ==== Sys2Proof/Laws/Ops.lean ====
section
/-! SUPPORT. One lemma per shared operation: what accepting a command, an enabled event, driving the line, a tick and an
edge can do. Provers cite these instead of unfolding the operations. -/

namespace Sys2Proof.Machine

/-! ## Acceptance -/

theorem cmdReady_iff (s : State) : s.cmdReady = true ↔ s.tx.busy = false ∧ s.sqActive = false := by
  simp [State.cmdReady]

@[simp] theorem State.cmdReady_openEvent (s : State) : s.openEvent.cmdReady = s.cmdReady := rfl

theorem accept_ready {s : State} (run : State → State) (h : s.cmdReady = true) :
    s.accept run = .next (run s.openEvent) := by
  simp [State.accept, h]

theorem accept_busy {s : State} (run : State → State) (h : s.cmdReady = false) :
    s.accept run = .refused .portNotReady := by
  simp [State.accept, h]

theorem accept_next {s t : State} {run : State → State} (h : s.accept run = .next t) :
    s.cmdReady = true ∧ t = run s.openEvent := by
  unfold State.accept at h
  split at h
  · exact ⟨‹_›, by cases h; rfl⟩
  · cases h

/-- A command that answers `v` at a ready port: the result port and nothing else. -/
theorem answer_ready {s : State} (v : Word) (h : s.cmdReady = true) :
    s.answer v = .next { s with out := { res := some v, done := none } } := by
  simp [State.answer, accept_ready _ h, State.withRes, State.openEvent]

theorem answer_busy {s : State} (v : Word) (h : s.cmdReady = false) : s.answer v = .refused .portNotReady :=
  accept_busy _ h

theorem answer_next {s t : State} {v : Word} (h : s.answer v = .next t) :
    s.cmdReady = true ∧ t = { s with out := { res := some v, done := none } } := by
  obtain ⟨hr, rfl⟩ := accept_next h
  exact ⟨hr, rfl⟩

theorem whenEnabled_true {s : State} {b : Bool} (run : State → State) (h : b = true) :
    s.whenEnabled b run = .next (run s.openEvent) := by
  simp [State.whenEnabled, h]

theorem whenEnabled_next {s t : State} {b : Bool} {run : State → State} (h : s.whenEnabled b run = .next t) :
    b = true ∧ t = run s.openEvent := by
  unfold State.whenEnabled at h
  split at h
  · exact ⟨‹_›, by cases h; rfl⟩
  · cases h

/-! ## Time -/

theorem State.period_pos (s : State) : 0 < s.period := Nat.two_pow_pos _

theorem State.now_lt (s : State) : s.now < s.period := Nat.mod_lt _ s.period_pos

theorem State.elapsed_lt (s : State) : s.elapsed < s.period := Nat.mod_lt _ s.period_pos

@[simp] theorem State.period_openEvent (s : State) : s.openEvent.period = s.period := rfl
@[simp] theorem State.now_openEvent (s : State) : s.openEvent.now = s.now := rfl
@[simp] theorem State.elapsed_openEvent (s : State) : s.openEvent.elapsed = s.elapsed := rfl
@[simp] theorem State.elapsed_setLineIn (l : Level) (s : State) : (s.setLineIn l).elapsed = s.elapsed := rfl
@[simp] theorem State.now_setLineIn (l : Level) (s : State) : (s.setLineIn l).now = s.now := rfl
@[simp] theorem State.now_freeEngine (s : State) : s.freeEngine.now = s.now := rfl
@[simp] theorem State.now_lineWrite (l : Level) (s : State) : (s.lineWrite l).now = s.now := by
  simp [State.now, State.period]
@[simp] theorem State.now_advance (c : Candidate) (s : State) : (s.advance c).now = c.time % s.period := by
  simp [State.now, State.period]
@[simp] theorem State.period_advance (c : Candidate) (s : State) : (s.advance c).period = s.period := by
  simp [State.period]

/-! ## The line -/

/-- Driving the line is the new level and, where the platform couples it back, the echo. -/
theorem lineWrite_eq (l : Level) (s : State) : s.lineWrite l = { s with lineOut := l, env := s.echo l } := by
  unfold State.lineWrite State.echo
  by_cases hl : s.lineOut = l
  · subst hl; simp
  · by_cases hc : s.params.coupled <;> simp [hl, hc]

@[simp] theorem echo_openEvent (l : Level) (s : State) : s.openEvent.echo l = s.echo l := rfl
@[simp] theorem echo_clock (l : Level) (s : State) : (s.echo l).clock = s.env.clock := by
  unfold State.echo; split <;> rfl
@[simp] theorem echo_roleStrap (l : Level) (s : State) : (s.echo l).roleStrap = s.env.roleStrap := by
  unfold State.echo; split <;> rfl
@[simp] theorem echo_hostScript (l : Level) (s : State) : (s.echo l).hostScript = s.env.hostScript := by
  unfold State.echo; split <;> rfl

/-- The symbols of a frame's transmission (R74): start and stop 1, between them the frame. -/
theorem frameWord_bit (f : Frame) (k : Nat) :
    (frameWord f).getLsbD k = if k = 0 ∨ k = 33 then true else f.getLsbD (k - 1) := by
  unfold frameWord
  rw [BitVec.getLsbD_append]
  rcases Nat.lt_or_ge k 1 with h | h
  · have : k = 0 := by omega
    subst this; simp
  · rw [BitVec.getLsbD_append]
    by_cases h33 : k = 33
    · subst h33; simp
    · by_cases hlt : k - 1 < 32
      · simp [show ¬ k < 1 by omega, hlt, h33, show k ≠ 0 by omega]
      · have hk : 33 < k := by omega
        have h1 : f.getLsbD (k - 1) = false := BitVec.getLsbD_of_ge f (k - 1) (by omega)
        simp [h1, show ¬ k < 1 by omega, h33, show k ≠ 0 by omega]
        omega

/-- The first half of the start bit of a frame's transmission is `ACTIVE` (R132). -/
theorem txLevel_start (f : Frame) : txLevel (frameWord f) 0 = .active := by
  simp only [txLevel, frameWord_bit]; rfl

/-- A transmission word built from a frame is framed (R74). -/
theorem isFramed_frameWord (f : Frame) : isFramed (frameWord f) = true := by
  simp only [isFramed, frameWord_bit]; rfl

/-- The last half of the stop bit of a framed word is `IDLE` (R132). -/
theorem txLevel_stop {w : TxWord} (h : isFramed w = true) : txLevel w 67 = .idle := by
  simp only [isFramed, Bool.and_eq_true] at h
  simp only [txLevel]
  rw [show 33 - 67 / 2 = 0 from rfl, h.2]; rfl

/-- The end of phase 67 is the end of the transmission, `T_FRAME` after its beginning (R135, R138). -/
theorem Engine.dueAt_last {e : Engine} (hk : e.kind ≠ .init) (hp : e.phase.toNat = 67) :
    e.dueAt = e.t0 + Config.tFrame := by
  cases h : e.kind <;> simp_all [Engine.dueAt, Config.tHalf, Config.tFrame]

/-! ## TICK and EDGE by cases -/

/-- Everything one tick can do (R172): nothing, the timeout, one of the two classifications, the end of `DELAY`. -/
theorem tickEffect_cases (s : State) :
    s.tickEffect = s ∨
    (s.cs.status ≠ .ready ∧ 1000000 < s.elapsed ∧ s.tickEffect = s.complete .timeout) ∨
    (s.cs.status = .responseInvalid ∧ s.elapsed ≤ 1000000 ∧ s.tickEffect = s.complete .invalidStart) ∨
    (s.cs.status = .responseReady ∧ s.elapsed ≤ 1000000 ∧
      s.tickEffect = s.complete (classify s.params.rxMap s.cs.role s.cs.pendingFrame)) ∨
    (s.cs.status = .delay ∧ 100000 < s.elapsed ∧ s.elapsed ≤ 1000000 ∧ s.tickEffect = s.setStatus .ready) := by
  unfold State.tickEffect Config.tTimeout Config.tDelay
  by_cases hr : s.cs.status = .ready
  · simp [hr]
  by_cases ht : 1000000 < s.elapsed
  · simp [hr, ht]
  have hle : s.elapsed ≤ 1000000 := by omega
  simp only [hr, ht, if_false]
  cases hst : s.cs.status <;> simp_all
  by_cases hd : 100000 < s.elapsed <;> simp [hd]

/-- A `TICK` command at a ready port: one tick, then the result 0. -/
theorem execTick_ready {s : State} (h : s.cmdReady = true) :
    execTick s = .next (s.openEvent.tickEffect.withRes 0) := by
  obtain ⟨-, hsq⟩ := (cmdReady_iff s).1 h
  simp [execTick, State.sequencerEnabled, hsq, accept_ready _ h]

/-- A tick completes in two ways: as the sequencer's, or as the command's. -/
theorem execTick_next {s t : State} (h : execTick s = .next t) :
    (s.sequencerEnabled = true ∧ t = s.openEvent.tickEffect.pollNext.endSequence) ∨
    (s.sequencerEnabled = false ∧ s.cmdReady = true ∧ t = s.openEvent.tickEffect.withRes 0) := by
  unfold execTick at h
  split at h
  · next he => exact .inl ⟨he, by cases h; rfl⟩
  · next he =>
    obtain ⟨hr, rfl⟩ := accept_next h
    exact .inr ⟨by simpa using he, hr, rfl⟩

theorem tickEffect_ready {s : State} (h : s.cs.status = .ready) : s.tickEffect = s := by
  simp [State.tickEffect, h]

theorem tickEffect_timeout {s : State} (h : s.cs.status ≠ .ready) (he : 1000000 < s.elapsed) :
    s.tickEffect = s.complete .timeout := by
  simp [State.tickEffect, h, Config.tTimeout, he]

theorem tickEffect_invalid {s : State} (h : s.cs.status = .responseInvalid) (he : s.elapsed ≤ 1000000) :
    s.tickEffect = s.complete .invalidStart := by
  simp [State.tickEffect, h, Config.tTimeout, Nat.not_lt.2 he]

theorem tickEffect_received {s : State} (h : s.cs.status = .responseReady) (he : s.elapsed ≤ 1000000) :
    s.tickEffect = s.complete (classify s.params.rxMap s.cs.role s.cs.pendingFrame) := by
  simp [State.tickEffect, h, Config.tTimeout, Nat.not_lt.2 he]

theorem tickEffect_delay {s : State} (h : s.cs.status = .delay) (he : s.elapsed ≤ 1000000) :
    s.tickEffect = if 100000 < s.elapsed then s.setStatus .ready else s := by
  simp [State.tickEffect, h, Config.tTimeout, Config.tDelay, Nat.not_lt.2 he]; rfl

/-- A tick writes only the status, the last response status and the completion strobe (R172). -/
theorem tickEffect_frame (s : State) :
    s.tickEffect.tx = s.tx ∧ s.tickEffect.lineOut = s.lineOut ∧ s.tickEffect.sqActive = s.sqActive ∧
    s.tickEffect.poll = s.poll ∧ s.tickEffect.env = s.env ∧ s.tickEffect.params = s.params ∧
    s.tickEffect.out.res = s.out.res ∧ s.tickEffect.cs.role = s.cs.role ∧
    s.tickEffect.cs.pendingFrame = s.cs.pendingFrame ∧
    s.tickEffect.cs.lastEdgeTimestamp = s.cs.lastEdgeTimestamp ∧
    s.tickEffect.cs.receivedBitCount = s.cs.receivedBitCount ∧
    s.tickEffect.cs.edgeEnable = s.cs.edgeEnable := by
  rcases tickEffect_cases s with h | ⟨-, -, h⟩ | ⟨-, -, h⟩ | ⟨-, -, h⟩ | ⟨-, -, -, h⟩ <;> rw [h] <;> simp

/-- A tick does not look at `SQ.active`. -/
theorem tickEffect_sqActive (s : State) (b : Bool) :
    State.tickEffect { s with sqActive := b } = { s.tickEffect with sqActive := b } := by
  have he : State.elapsed { s with sqActive := b } = s.elapsed := rfl
  unfold State.tickEffect
  simp only [he]
  split
  · rfl
  split
  · rfl
  cases hst : s.cs.status <;> simp only <;> first | rfl | (split <;> rfl)

/-- The class of a received frame is one of three (R176). -/
theorem classify_ne (m : RxValidatorMap) (r : Role) (f : Frame) :
    classify m r f ≠ .timeout ∧ classify m r f ≠ .none ∧ classify m r f ≠ .invalidStart := by
  unfold classify; split <;> (try split) <;> simp

/-- Everything one edge can do (R152 to R159), with the row that does it. -/
theorem receive_cases (l : Level) (s : State) :
    s.receive l = s ∨
    (s.cs.edgeEnable = true ∧ (s.cs.status = .awaitingResponse ∨ (s.cs.status = .ready ∧ s.cs.role = .slave)) ∧
      l = .active ∧ s.receive l = s.stamp .receivedStartBit) ∨
    (s.cs.edgeEnable = true ∧ s.cs.status = .awaitingResponse ∧ l = .idle ∧
      s.receive l = s.stamp .responseInvalid) ∨
    (s.cs.edgeEnable = true ∧ s.cs.status = .receivedStartBit ∧ s.elapsed < 750 ∧ l = .idle ∧
      s.receive l = { s.stamp .receiving with cs := { (s.stamp .receiving).cs with receivedBitCount := 0 } }) ∨
    (s.cs.edgeEnable = true ∧ s.cs.status = .receivedStartBit ∧ ¬(s.elapsed < 750 ∧ l = .idle) ∧
      s.receive l = s.stamp .responseInvalid) ∨
    (s.cs.edgeEnable = true ∧ s.cs.status = .receiving ∧ 750 < s.elapsed ∧ s.cs.receivedBitCount.toNat < 32 ∧
      s.receive l = { s.stamp .receiving with cs := { (s.stamp .receiving).cs with
        pendingFrame := shiftIn s.cs.pendingFrame l, receivedBitCount := s.cs.receivedBitCount + 1 } }) ∨
    (s.cs.edgeEnable = true ∧ s.cs.status = .receiving ∧ 750 < s.elapsed ∧ s.cs.receivedBitCount.toNat = 32 ∧
      s.receive l = s.stamp .responseReady) := by
  unfold State.receive
  by_cases he : s.cs.edgeEnable = true
  swap
  · simp [he]
  simp only [he, if_true]
  cases hst : s.cs.status <;> simp only [reduceCtorEq, false_and, and_false, false_or, or_false, true_and]
  · by_cases h : s.cs.role = .slave ∧ l = .active
    · obtain ⟨hr, rfl⟩ := h; simp [hr, State.firstEdge]
    · simp [h]
  · cases l <;> simp [State.firstEdge]
  · unfold State.confirmStart Config.tMid
    by_cases h : s.elapsed < 750 ∧ l = .idle
    · simp [h]
    · simp only [h, if_false]; simp
  · unfold State.sample Config.tMid Config.nBits
    by_cases h : s.elapsed ≤ 750
    · simp [h]
    have h' : 750 < s.elapsed := by omega
    simp only [h, if_false, h', true_and]
    by_cases hlt : s.cs.receivedBitCount.toNat < 32
    · simp [hlt]
    by_cases heq : s.cs.receivedBitCount.toNat = 32
    · simp [heq]
    · simp [hlt, heq]

/-- Whatever the row, an edge writes only the four fields of R151. -/
theorem receive_frame (l : Level) (s : State) :
    (s.receive l).tx = s.tx ∧ (s.receive l).lineOut = s.lineOut ∧ (s.receive l).sqActive = s.sqActive ∧
    (s.receive l).out = s.out ∧ (s.receive l).poll = s.poll ∧ (s.receive l).env = s.env ∧
    (s.receive l).params = s.params ∧ (s.receive l).cs.role = s.cs.role ∧
    (s.receive l).cs.lastResponseStatus = s.cs.lastResponseStatus ∧
    (s.receive l).cs.edgeEnable = s.cs.edgeEnable := by
  rcases receive_cases l s with h | ⟨-, -, -, h⟩ | ⟨-, -, -, h⟩ | ⟨-, -, -, -, h⟩ | ⟨-, -, -, h⟩ | ⟨-, -, -, -, h⟩ |
    ⟨-, -, -, -, h⟩ <;> rw [h] <;> simp

end Sys2Proof.Machine
end

