-- ==== Sys2Proof/Laws/Codec.lean ====
section
/-! SUPPORT. The codec's arithmetic: counting set bits (R13), parity (R115), the fields of a frame as quotients and
remainders (R70), what the builders assemble (R83), and one received bit (R157). -/

namespace Sys2Proof.Machine

/-! ## Bits as numbers -/

/-- A bit field is a quotient and a remainder. -/
theorem extractLsb'_toNat {n : Nat} (f : BitVec n) (a m : Nat) :
    (f.extractLsb' a m).toNat = f.toNat / 2 ^ a % 2 ^ m := by
  simp [BitVec.extractLsb'_toNat, Nat.shiftRight_eq_div_pow]

/-- Concatenation is a sum. -/
theorem append_toNat {m n : Nat} (a : BitVec m) (b : BitVec n) :
    (a ++ b).toNat = a.toNat * 2 ^ n + b.toNat := by
  rw [BitVec.toNat_append, ← Nat.shiftLeft_add_eq_or_of_lt b.isLt, Nat.shiftLeft_eq]

theorem assemble_toNat (t : MsgType) (id : BitVec 8) (data : BitVec 16) :
    (assemble t id data).toNat = t.code.toNat * 2 ^ 28 + id.toNat * 2 ^ 16 + data.toNat := by
  simp only [assemble, append_toNat]
  simp
  omega

theorem replaceData_toNat (f : Frame) (data : BitVec 16) :
    (replaceData f data).toNat = f.toNat / 2 ^ 16 % 2 ^ 15 * 2 ^ 16 + data.toNat := by
  simp only [replaceData, append_toNat, extractLsb'_toNat]
  simp

theorem assemble_lt (t : MsgType) (id : BitVec 8) (data : BitVec 16) : (assemble t id data).toNat < 2 ^ 31 := by
  rw [assemble_toNat]
  have h1 := t.code.isLt
  have h2 := id.isLt
  have h3 := data.isLt
  omega

theorem replaceData_lt (f : Frame) (data : BitVec 16) : (replaceData f data).toNat < 2 ^ 31 := by
  rw [replaceData_toNat]
  have h3 := data.isLt
  have h := Nat.mod_lt (f.toNat / 2 ^ 16) (Nat.two_pow_pos 15)
  omega

/-- The new bit at the bottom (R157), the oldest lost. -/
theorem shiftIn_eq (f : Frame) (l : Level) :
    shiftIn f l = BitVec.ofNat 32 (f.toNat * 2 + if l = .idle then 1 else 0) := by
  have h : zext (levelCode (invert l)) = BitVec.ofNat 32 (if l = .idle then 1 else 0) := by cases l <;> rfl
  rw [shiftIn, h]
  apply BitVec.eq_of_toNat_eq
  rw [BitVec.toNat_or, BitVec.toNat_shiftLeft, BitVec.toNat_ofNat, BitVec.toNat_ofNat, Nat.shiftLeft_eq]
  have hf := f.isLt
  have key : ∀ n b : Nat, b < 2 → (2 * n) ||| b = 2 * n + b := by
    intro n b hb
    have := Nat.two_pow_add_eq_or_of_lt (i := 1) (b := b) (by simpa using hb) n
    simpa using this.symm
  have hm : f.toNat * 2 ^ 1 % 2 ^ 32 = 2 * (f.toNat % 2 ^ 31) := by omega
  rw [hm]
  split
  · rw [Nat.mod_eq_of_lt (by decide : (1 : Nat) < 2 ^ 32), key _ _ (by decide)]; omega
  · rw [Nat.mod_eq_of_lt (by decide : (0 : Nat) < 2 ^ 32), key _ _ (by decide)]; omega

/-! ## Counting set bits -/

theorem popcountBelow_eq {n : Nat} (v : BitVec n) (k : Nat) :
    popcountBelow v k = (List.range k).countP (fun j => v.getLsbD j) := by
  induction k with
  | zero => rfl
  | succ k ih =>
    rw [popcountBelow, ih, List.range_succ, List.countP_append]
    cases h : v.getLsbD k <;> simp [h, Nat.add_comm]

/-- The recursion and the count over the bit positions agree. -/
theorem popcount_eq_onesOf (f : Frame) : popcount f = onesOf f := popcountBelow_eq f 32

theorem parity_eq (f : Frame) : parity f = decide (onesOf f % 2 = 1) := by
  simp [parity, popcount_eq_onesOf]; rfl

/-- Two words whose bits below `k` agree have as many of them set. -/
theorem popcountBelow_congr {n : Nat} {v w : BitVec n} {k : Nat}
    (h : ∀ j, j < k → v.getLsbD j = w.getLsbD j) : popcountBelow v k = popcountBelow w k := by
  induction k with
  | zero => rfl
  | succ k ih =>
    rw [popcountBelow, popcountBelow, h k (by omega), ih (fun j hj => h j (by omega))]

/-- Flipping one bit flips the parity of the count; a bit at or above `k` is not counted. -/
theorem popcountBelow_flip {n : Nat} (v : BitVec n) (j : Nat) (hj : j < n) (k : Nat) :
    popcountBelow (v ^^^ BitVec.twoPow n j) k % 2 = (popcountBelow v k + if j < k then 1 else 0) % 2 := by
  induction k with
  | zero => simp [popcountBelow]
  | succ k ih =>
    rw [popcountBelow, popcountBelow, BitVec.getLsbD_xor, BitVec.getLsbD_twoPow]
    by_cases hk : j = k
    · subst hk
      have hlt : ¬ j < j := by omega
      simp only [hlt, if_false] at ih
      cases h : v.getLsbD j <;> simp [hj] <;> omega
    · have h1 : (j < k + 1) = (j < k) := by apply propext; omega
      simp only [h1, hk, decide_false, Bool.and_false, Bool.xor_false]
      omega

theorem parity_flip (f : Frame) (j : Nat) (hj : j < 32) : parity (f ^^^ BitVec.twoPow 32 j) = !parity f := by
  have h := popcountBelow_flip f j hj 32
  simp only [hj, if_true] at h
  have h0 : popcountBelow f 32 % 2 = 0 ∨ popcountBelow f 32 % 2 = 1 := by omega
  simp only [parity, popcount]
  rcases h0 with h0 | h0
  · rw [h0, show popcountBelow (f ^^^ BitVec.twoPow 32 j) 32 % 2 = 1 by omega]; rfl
  · rw [h0, show popcountBelow (f ^^^ BitVec.twoPow 32 j) 32 % 2 = 0 by omega]; rfl

/-! ## The parity bit -/

/-- The parity bit is bit 31; the other bits are as they were. -/
theorem insertParity_bit (f0 : Frame) (j : Nat) :
    (insertParity f0).getLsbD j = if j = 31 then (f0.getLsbD 31 || parity f0) else f0.getLsbD j := by
  unfold insertParity
  rw [BitVec.getLsbD_or]
  by_cases hp : parity f0 = true
  · simp only [hp, if_true]
    rw [show (0x80000000 : Frame) = BitVec.twoPow 32 31 from rfl, BitVec.getLsbD_twoPow]
    by_cases hj : j = 31
    · subst hj; simp
    · simp [hj, Ne.symm hj]
  · simp only [Bool.not_eq_true] at hp
    simp only [hp, Bool.false_eq_true, if_false, Bool.or_false]
    by_cases hj : j = 31
    · subst hj; simp
    · simp [hj]

/-- The top bit of a frame below `2 ^ 31` is 0. -/
theorem top_of_lt {f : Frame} (h : f.toNat < 2 ^ 31) : f.getLsbD 31 = false := by
  rw [BitVec.getLsbD, Nat.testBit_lt_two_pow h]

/-- With the parity bit inserted the whole frame has an even number of set bits (R115). -/
theorem parity_insertParity {f0 : Frame} (h : f0.toNat < 2 ^ 31) : parity (insertParity f0) = false := by
  have ht := top_of_lt h
  by_cases hp : parity f0 = true
  · have he : insertParity f0 = f0 ^^^ BitVec.twoPow 32 31 := by
      apply BitVec.eq_of_getLsbD_eq
      intro j hj
      rw [insertParity_bit, BitVec.getLsbD_xor, BitVec.getLsbD_twoPow]
      by_cases hj' : j = 31
      · subst hj'; simpa [hp] using ht
      · simp [hj', Ne.symm hj']
    rw [he, parity_flip f0 31 (by decide), hp]; rfl
  · simp only [Bool.not_eq_true] at hp
    have he : insertParity f0 = f0 := by simp [insertParity, hp]
    rw [he, hp]

theorem onesOf_insertParity {f0 : Frame} (h : f0.toNat < 2 ^ 31) : onesOf (insertParity f0) % 2 = 0 := by
  have hp := parity_insertParity h
  rw [parity_eq] at hp
  have := of_decide_eq_false hp
  omega

/-- The bits below the parity bit are kept. -/
theorem insertParity_low {f0 : Frame} (h : f0.toNat < 2 ^ 31) : (insertParity f0).toNat % 2 ^ 31 = f0.toNat := by
  apply Nat.eq_of_testBit_eq
  intro j
  rw [Nat.testBit_mod_two_pow]
  have hb : ∀ g : Frame, g.toNat.testBit j = g.getLsbD j := fun _ => rfl
  rw [hb, hb, insertParity_bit]
  by_cases hj : j < 31
  · simp [hj, show j ≠ 31 by omega]
  · have : f0.getLsbD j = false := by
      rw [← hb]
      exact Nat.testBit_lt_two_pow (Nat.lt_of_lt_of_le h (Nat.pow_le_pow_right (by decide) (by omega)))
    simp [hj, this]

/-- A built frame, below the parity bit (R102, R103). -/
theorem buildFrame_low (t : MsgType) (id : BitVec 8) (data : BitVec 16) :
    (buildFrame t id data).toNat % 2 ^ 31 = t.code.toNat * 2 ^ 28 + id.toNat * 2 ^ 16 + data.toNat := by
  rw [buildFrame, insertParity_low (assemble_lt t id data), assemble_toNat]

/-- The fields of a built frame are what it was built from (R116). -/
theorem msgTypeField_buildFrame (t : MsgType) (id : BitVec 8) (data : BitVec 16) :
    msgTypeField (buildFrame t id data) = t.code := by
  have h := buildFrame_low t id data
  apply BitVec.eq_of_toNat_eq
  rw [msgTypeField, extractLsb'_toNat]
  have h2 := id.isLt
  have h3 := data.isLt
  omega

theorem dataIdField_buildFrame (t : MsgType) (id : BitVec 8) (data : BitVec 16) :
    dataIdField (buildFrame t id data) = id := by
  have h := buildFrame_low t id data
  apply BitVec.eq_of_toNat_eq
  rw [dataIdField, extractLsb'_toNat]
  have h2 := id.isLt
  have h3 := data.isLt
  omega

theorem dataField_buildFrame (t : MsgType) (id : BitVec 8) (data : BitVec 16) :
    dataField (buildFrame t id data) = data := by
  have h := buildFrame_low t id data
  apply BitVec.eq_of_toNat_eq
  rw [dataField, extractLsb'_toNat]
  have h3 := data.isLt
  omega

/-! ## Temperature (R111) -/

/-- Below the range the word is 0, above it 25600, and inside it is the floor of 256 times the quotient. -/
theorem temperatureRatio_spec (num : Int) (den : Nat) (hd : 0 < den) :
    (num ≤ 0 → temperatureRatio num den = 0) ∧
    (100 * den ≤ num → temperatureRatio num den = 25600) ∧
    (0 ≤ num → num ≤ 100 * den →
      (temperatureRatio num den : Int) * den ≤ num * 256 ∧ num * 256 < (temperatureRatio num den + 1) * den) ∧
    temperatureRatio num den ≤ 25600 := by
  have hd' : (0 : Int) < den := by exact_mod_cast hd
  have inside : ∀ x : Int, 0 ≤ x → x ≤ 100 * den →
      ((x * 256 / den).toNat : Int) = x * 256 / den ∧ x * 256 / den ≤ 25600 := by
    intro x h0 h1
    have hq : 0 ≤ x * 256 / den := Int.ediv_nonneg (by omega) (by omega)
    refine ⟨Int.toNat_of_nonneg hq, Int.ediv_le_of_le_mul hd' (by omega)⟩
  have top : temperatureRatio num den = ((max 0 (min num (100 * den))) * 256 / den).toNat := rfl
  have m0 : 0 ≤ max 0 (min num (100 * (den : Int))) := by omega
  have m1 : max 0 (min num (100 * (den : Int))) ≤ 100 * den := by omega
  refine ⟨fun h => ?_, fun h => ?_, fun h0 h1 => ?_, ?_⟩
  · rw [top, show max 0 (min num (100 * (den : Int))) = 0 by omega]; simp
  · rw [top, show max 0 (min num (100 * (den : Int))) = 100 * den by omega,
      show (100 * (den : Int) * 256) = 25600 * den by omega, Int.mul_ediv_cancel _ (by omega)]; rfl
  · rw [top, show max 0 (min num (100 * (den : Int))) = num by omega, (inside num h0 h1).1]
    exact ⟨Int.ediv_mul_le _ (by omega), Int.lt_ediv_add_one_mul_self _ hd'⟩
  · have h := inside _ m0 m1
    rw [top]
    omega

end Sys2Proof.Machine
end

