-- ==== Sys2Proof/Laws/Encoding.lean ====
section
/-! SUPPORT. The small lemmas of the encodings: fields of a command word read back (R79), message-type codes (R71),
level bits (R14), and a word moved onto a wire and off it again. -/

namespace Sys2Proof

@[simp] theorem cmdOp_cmdWord (op : BitVec 5) (b : BitVec 16) (a : Word) : cmdOp (cmdWord op b a) = op := by
  ext i hi
  simp only [cmdOp, cmdWord, BitVec.getElem_extractLsb', BitVec.getLsbD_append]
  rw [if_neg (by omega), if_neg (by omega)]
  simp [BitVec.getLsbD_eq_getElem hi, show 48 + i - 32 - 16 = i by omega]

@[simp] theorem cmdB_cmdWord (op : BitVec 5) (b : BitVec 16) (a : Word) : cmdB (cmdWord op b a) = b := by
  ext i hi
  simp only [cmdB, cmdWord, BitVec.getElem_extractLsb', BitVec.getLsbD_append]
  rw [if_neg (by omega), if_pos (by omega)]
  simp [BitVec.getLsbD_eq_getElem hi]

@[simp] theorem cmdA_cmdWord (op : BitVec 5) (b : BitVec 16) (a : Word) : cmdA (cmdWord op b a) = a := by
  ext i hi
  simp only [cmdA, cmdWord, BitVec.getElem_extractLsb', BitVec.getLsbD_append]
  rw [if_pos (by omega)]
  simp [BitVec.getLsbD_eq_getElem hi]

@[simp] theorem ofCode_code (t : MsgType) : MsgType.ofCode t.code = t := by cases t <;> rfl

@[simp] theorem code_ofCode (c : BitVec 3) : (MsgType.ofCode c).code = c := by revert c; decide

@[simp] theorem ofBool_toBool (l : Level) : Level.ofBool l.toBool = l := by cases l <;> rfl

@[simp] theorem toBool_ofBool (b : Bool) : (Level.ofBool b).toBool = b := by cases b <;> rfl

/-- The fields of form (b) of `A`, bit by bit. -/
theorem buildFields_bit (t : MsgType) (id : BitVec 8) (data : BitVec 16) (k : Nat) (hk : k < 32) :
    (buildFields t id data).getLsbD k =
      if k < 16 then data.getLsbD k
      else if k < 24 then id.getLsbD (k - 16)
      else if k < 28 then false
      else if k < 31 then t.code.getLsbD (k - 28)
      else false := by
  unfold buildFields
  simp only [BitVec.getLsbD_append]
  by_cases h1 : k < 16
  · simp [h1]
  by_cases h2 : k < 24
  · simp [h1, h2, show k - 16 < 8 by omega]
  by_cases h3 : k < 28
  · simp [h1, h2, h3, show ¬ k - 16 < 8 by omega, show k - 16 - 8 < 4 by omega]
  by_cases h4 : k < 31
  · simp [h1, h2, h3, h4, show ¬ k - 16 < 8 by omega, show ¬ k - 16 - 8 < 4 by omega,
      show k - 16 - 8 - 4 = k - 28 by omega]
    exact fun _ => by omega
  · simp [h1, h2, h3, h4, show ¬ k - 16 < 8 by omega, show ¬ k - 16 - 8 < 4 by omega,
      show ¬ k - 16 - 8 - 4 < 3 by omega]

@[simp] theorem fieldType_buildFields (t : MsgType) (id : BitVec 8) (data : BitVec 16) :
    fieldType (buildFields t id data) = t := by
  unfold fieldType
  have h : (buildFields t id data).extractLsb' 28 3 = t.code := by
    ext i hi
    rw [BitVec.getElem_extractLsb', buildFields_bit _ _ _ _ (by omega)]
    rw [if_neg (by omega), if_neg (by omega), if_neg (by omega), if_pos (by omega)]
    simp [BitVec.getLsbD_eq_getElem hi]
  rw [h, ofCode_code]

@[simp] theorem fieldId_buildFields (t : MsgType) (id : BitVec 8) (data : BitVec 16) :
    fieldId (buildFields t id data) = id := by
  ext i hi
  rw [fieldId, BitVec.getElem_extractLsb', buildFields_bit _ _ _ _ (by omega)]
  rw [if_neg (by omega), if_pos (by omega)]
  simp [BitVec.getLsbD_eq_getElem hi]

@[simp] theorem fieldData_buildFields (t : MsgType) (id : BitVec 8) (data : BitVec 16) :
    fieldData (buildFields t id data) = data := by
  ext i hi
  rw [fieldData, BitVec.getElem_extractLsb', buildFields_bit _ _ _ _ (by omega)]
  rw [if_pos (by omega)]
  simp [BitVec.getLsbD_eq_getElem hi]

/-- A word of `n` bits moved onto the packet's 53 and off again. -/
theorem setWidth_roundTrip {n : Nat} (hn : n ≤ 53) (v : BitVec n) : (v.setWidth 53).setWidth n = v := by
  ext i hi
  simp [BitVec.getLsbD_eq_getElem hi]
  omega

theorem setWidth_lt {n : Nat} (v : BitVec n) : (v.setWidth 53).toNat < 2 ^ n := by
  rw [BitVec.toNat_setWidth]
  exact Nat.lt_of_le_of_lt (Nat.mod_le _ _) v.isLt

/-- The packet's 53 bits are the word, where nothing is above it. -/
theorem setWidth_back {n : Nat} (w : CmdWord) (h : w.toNat < 2 ^ n) :
    (w.setWidth n).setWidth 53 = w := by
  apply BitVec.eq_of_toNat_eq
  rw [BitVec.toNat_setWidth, BitVec.toNat_setWidth, Nat.mod_eq_of_lt h, Nat.mod_eq_of_lt w.isLt]

/-- A command word is 53 bits wide. -/
theorem cmdPacket_fits (op : BitVec 5) (b : BitVec 16) (a : Word) :
    (cmdPacket op b a).bits.toNat < 2 ^ (cmdPacket op b a).wire.width := (cmdWord op b a).isLt

/-- A frame row is decoded by its type code (R71). -/
theorem decodeFrame_of_type {f : Frame} {t : MsgType} (h : hasTypeCode f t.code = true) : fieldType f = t := by
  unfold hasTypeCode at h
  rw [fieldType, eq_of_beq h, ofCode_code]

/-- A packet that fits its wire is decoded by its wire's format. -/
theorem decode_fits {p : Packet} (h : p.bits.toNat < 2 ^ p.wire.width) :
    decode p =
      match p.wire with
      | .cmd => .ok (decodeCommand p.bits)
      | .frame => .ok (decodeFrame (p.bits.setWidth 32))
      | .symbol => decodeSymbol (p.bits.setWidth 2)
      | .txWord => decodeTxWord (p.bits.setWidth 34)
      | .edge => .ok (.edge (Level.ofBool (p.bits.getLsbD 0)))
      | .rst => .ok .reset
      | .txStep => .ok .txStep
      | .txEnd => .ok .txEnd
      | .initBegin => .ok .initBegin
      | .initEnd => .ok .initEnd := by
  unfold decode
  exact if_neg (Nat.not_le.2 h)

/-- What is decoded from a frame's packet. -/
theorem decode_framePacket (f : Frame) : decode (framePacket f) = .ok (decodeFrame f) := by
  rw [decode_fits (setWidth_lt f)]
  simp only [framePacket, setWidth_roundTrip (by decide : 32 ≤ 53)]

/-- What is decoded from a command's packet. -/
theorem decode_cmdPacket (op : BitVec 5) (b : BitVec 16) (a : Word) :
    decode (cmdPacket op b a) = .ok (decodeCommand (cmdWord op b a)) :=
  decode_fits (cmdWord op b a).isLt

/-- What is decoded from an `EDGE` packet. -/
theorem decode_edgePacket (l : Level) : decode (encode (.edge l)) = .ok (.edge l) := by cases l <;> rfl

end Sys2Proof
end

