-- ==== Sys2Proof/Laws/PerInstr.lean ====
section
/-! SUPPORT. The family `EncodeFits`, one lemma per instruction: an instruction's encoding has no bit above the width of
its wire, the width opcode_table.json gives its row (R70, R73, R74, R79). -/

namespace Sys2Proof.Laws.EncodeFits

/-- The encoding of the instruction fits its wire. -/
def Statement (i : Instr) : Prop := (encode i).bits.toNat < 2 ^ (encode i).wire.width

theorem parity (frame : Frame) : Statement (.parity frame) := cmdPacket_fits _ _ _
theorem buildRequest (type : MsgType) (id : BitVec 8) (data : BitVec 16) : Statement (.buildRequest type id data) :=
  cmdPacket_fits _ _ _
theorem buildResponse (type : MsgType) (id : BitVec 8) (data : BitVec 16) : Statement (.buildResponse type id data) :=
  cmdPacket_fits _ _ _
theorem getMessageType (frame : Frame) : Statement (.getMessageType frame) := cmdPacket_fits _ _ _
theorem getDataId (frame : Frame) : Statement (.getDataId frame) := cmdPacket_fits _ _ _
theorem getUInt16 (frame : Frame) : Statement (.getUInt16 frame) := cmdPacket_fits _ _ _
theorem getInt16 (frame : Frame) : Statement (.getInt16 frame) := cmdPacket_fits _ _ _
theorem getFloat (frame : Frame) : Statement (.getFloat frame) := cmdPacket_fits _ _ _
theorem getUbUInt8 (frame : Frame) : Statement (.getUbUInt8 frame) := cmdPacket_fits _ _ _
theorem getLbUInt8 (frame : Frame) : Statement (.getLbUInt8 frame) := cmdPacket_fits _ _ _
theorem temperatureToData (a : Word) : Statement (.temperatureToData a) := cmdPacket_fits _ _ _
theorem isValidRequest (frame : Frame) : Statement (.isValidRequest frame) := cmdPacket_fits _ _ _
theorem isValidResponse (frame : Frame) : Statement (.isValidResponse frame) := cmdPacket_fits _ _ _
theorem modifyMsgData (frame : Frame) (newData : BitVec 16) : Statement (.modifyMsgData frame newData) :=
  cmdPacket_fits _ _ _
theorem initChannel : Statement .initChannel := cmdPacket_fits _ _ _
theorem tick : Statement .tick := cmdPacket_fits _ _ _
theorem sendRequestAsync (frame : Frame) : Statement (.sendRequestAsync frame) := cmdPacket_fits _ _ _
theorem sendRequest (frame : Frame) : Statement (.sendRequest frame) := cmdPacket_fits _ _ _
theorem sendResponse (frame : Frame) : Statement (.sendResponse frame) := cmdPacket_fits _ _ _
theorem isReady : Statement .isReady := cmdPacket_fits _ _ _
theorem getLastResponseStatus : Statement .getLastResponseStatus := cmdPacket_fits _ _ _
theorem reservedCmd0E : Statement .reservedCmd0E := cmdPacket_fits _ _ _
theorem reservedCmd0F : Statement .reservedCmd0F := cmdPacket_fits _ _ _
theorem reservedCmd17 : Statement .reservedCmd17 := cmdPacket_fits _ _ _
theorem reservedCmd18 : Statement .reservedCmd18 := cmdPacket_fits _ _ _
theorem reservedCmd19 : Statement .reservedCmd19 := cmdPacket_fits _ _ _
theorem reservedCmd1A : Statement .reservedCmd1A := cmdPacket_fits _ _ _
theorem reservedCmd1B : Statement .reservedCmd1B := cmdPacket_fits _ _ _
theorem reservedCmd1C : Statement .reservedCmd1C := cmdPacket_fits _ _ _
theorem reservedCmd1D : Statement .reservedCmd1D := cmdPacket_fits _ _ _
theorem reservedCmd1E : Statement .reservedCmd1E := cmdPacket_fits _ _ _
theorem reservedCmd1F : Statement .reservedCmd1F := cmdPacket_fits _ _ _
theorem frameReadData (frame : Frame) : Statement (.frameReadData frame) := setWidth_lt frame
theorem frameWriteData (frame : Frame) : Statement (.frameWriteData frame) := setWidth_lt frame
theorem frameInvalidData (frame : Frame) : Statement (.frameInvalidData frame) := setWidth_lt frame
theorem frameReserved (frame : Frame) : Statement (.frameReserved frame) := setWidth_lt frame
theorem frameReadAck (frame : Frame) : Statement (.frameReadAck frame) := setWidth_lt frame
theorem frameWriteAck (frame : Frame) : Statement (.frameWriteAck frame) := setWidth_lt frame
theorem frameDataInvalid (frame : Frame) : Statement (.frameDataInvalid frame) := setWidth_lt frame
theorem frameUnknownDataId (frame : Frame) : Statement (.frameUnknownDataId frame) := setWidth_lt frame
theorem symbolBit1 : Statement .symbolBit1 := by unfold Statement; decide
theorem symbolBit0 : Statement .symbolBit0 := by unfold Statement; decide
theorem txWord (word : TxWord) : Statement (.txWord word) := setWidth_lt word
theorem edge (level : Level) : Statement (.edge level) := by unfold Statement; cases level <;> decide
theorem reset : Statement .reset := by unfold Statement; decide
theorem txStep : Statement .txStep := by unfold Statement; decide
theorem txEnd : Statement .txEnd := by unfold Statement; decide
theorem initBegin : Statement .initBegin := by unfold Statement; decide
theorem initEnd : Statement .initEnd := by unfold Statement; decide

end Sys2Proof.Laws.EncodeFits
end

