-- ==== Sys2Proof/Laws/Schedule.lean ====
section
/-! SUPPORT. Which event comes next: the earliest candidate, what each candidate says of its source, and when the
engine's event is due. -/

namespace Sys2Proof.Machine

/-! ## The earliest candidate -/

theorem earliest_none {l : List Candidate} (h : earliest l = none) : l = [] := by
  cases l with
  | nil => rfl
  | cons c cs =>
    rw [earliest] at h
    split at h
    · cases h
    · split at h <;> cases h

theorem earliest_mem {l : List Candidate} {c : Candidate} (h : earliest l = some c) : c ∈ l := by
  induction l generalizing c with
  | nil => cases h
  | cons b bs ih =>
    rw [earliest] at h
    split at h
    · cases h; exact List.mem_cons_self
    · next d hd =>
      split at h
      · cases h; exact List.mem_cons_self
      · cases h; exact List.mem_cons_of_mem _ (ih hd)

/-- Where the list is ordered by a reflexive relation, the earliest candidate stands in it to every other of its
time. -/
theorem earliest_first {R : Candidate → Candidate → Prop} (hR : ∀ c, R c c) {l : List Candidate} {c : Candidate}
    (hp : l.Pairwise R) (h : earliest l = some c) : ∀ d ∈ l, c.time < d.time ∨ (c.time = d.time ∧ R c d) := by
  induction l generalizing c with
  | nil => cases h
  | cons b bs ih =>
    rw [List.pairwise_cons] at hp
    rw [earliest] at h
    intro d hd
    rw [List.mem_cons] at hd
    split at h
    · next hn =>
      cases h
      rw [earliest_none hn] at hd
      rcases hd with rfl | hd
      · exact .inr ⟨rfl, hR _⟩
      · cases hd
    · next e he =>
      split at h
      · next hle =>
        cases h
        rcases hd with rfl | hd
        · exact .inr ⟨rfl, hR _⟩
        · rcases ih hp.2 he d hd with hlt | ⟨heq, -⟩
          · exact .inl (by omega)
          · rcases Nat.lt_or_ge b.time d.time with h1 | h1
            · exact .inl h1
            · exact .inr ⟨by omega, hp.1 d hd⟩
      · next hle =>
        cases h
        rcases hd with rfl | hd
        · exact .inl (by omega)
        · exact ih hp.2 he d hd

/-! ## When the engine's event is due -/

theorem State.clock_le_engineTime (s : State) : s.env.clock ≤ s.engineTime := Nat.le_add_right _ _

/-- At the engine's time the engine's event is due (R134, R135, R137). -/
theorem State.engineTime_due (s : State) : s.engineTime % s.period = s.tx.dueAt % s.period := by
  have hP := s.period_pos
  have hn := s.now_lt
  unfold State.engineTime
  rw [Nat.add_mod, Nat.mod_mod]
  change (s.now + _) % _ = _
  have hd := Nat.mod_lt s.tx.dueAt hP
  generalize s.tx.dueAt % s.period = a at hd
  generalize s.now = b at hn
  generalize s.period = P at *
  by_cases h : b ≤ a
  · rw [show a + (P - b) = (a - b) + P by omega, Nat.add_mod_right, Nat.mod_eq_of_lt (a := a - b) (by omega),
      show b + (a - b) = a by omega, Nat.mod_eq_of_lt hd]
  · rw [Nat.mod_eq_of_lt (a := a + (P - b)) (by omega), show b + (a + (P - b)) = a + P by omega, Nat.add_mod_right,
      Nat.mod_eq_of_lt hd]

/-- No earlier time is: it is the first from now. -/
theorem State.engineTime_le {s : State} {T : Nat} (hc : s.env.clock ≤ T) (hT : T % s.period = s.tx.dueAt % s.period) :
    s.engineTime ≤ T := by
  have h := s.engineTime_due
  have hlt : s.engineTime < s.env.clock + s.period := Nat.add_lt_add_left (Nat.mod_lt _ s.period_pos) _
  by_contra hgt
  have hm : s.engineTime ≡ T [MOD s.period] := by rw [Nat.ModEq, h, hT]
  have hdvd : s.period ∣ s.engineTime - T := (Nat.modEq_iff_dvd' (by omega)).1 hm.symm
  have := Nat.le_of_dvd (by omega) hdvd
  omega

/-- An engine's next phase is due `500` µs from its beginning, where the period is longer than that. -/
theorem State.engineTime_eq {s : State} {d : Nat} (hd : d < s.period)
    (h : s.tx.dueAt % s.period = (s.env.clock + d) % s.period) : s.engineTime = s.env.clock + d := by
  have h1 := State.engineTime_le (s := s) (T := s.env.clock + d) (by omega) h.symm
  have h0 := s.clock_le_engineTime
  have hm : s.engineTime ≡ s.env.clock + d [MOD s.period] := by rw [Nat.ModEq, s.engineTime_due, h]
  have hdvd : s.period ∣ s.env.clock + d - s.engineTime := (Nat.modEq_iff_dvd' h1).1 hm
  by_contra hne
  have := Nat.le_of_dvd (by omega) hdvd
  omega

/-! ## The sequencer -/

/-- A sequencer tick is later than the event before it (R181). -/
theorem State.after_lt_pollTime (s : State) : s.poll.after < s.pollTime := by
  unfold State.pollTime
  split
  · next t rest h =>
    by_contra hn
    have h2 := List.head?_dropWhile_not (fun t => decide (t ≤ s.poll.after)) s.poll.schedule
    rw [h] at h2
    simp at h2
    omega
  · omega

/-! ## Candidates -/

/-- What a candidate says: its source has something to come, and not before the clock. -/
theorem mem_candidates {s : State} {c : Candidate} (h : c ∈ s.candidates) :
    (∃ t, s.env.rstScript.head? = some t ∧ c = ⟨.rst, max s.env.clock t⟩) ∨
    (∃ a, s.env.lineScript.head? = some a ∧ c = ⟨.line, max s.env.clock a.time⟩) ∨
    (∃ w, s.tx.nextWire = some w ∧ c = ⟨.engine, s.engineTime⟩) ∨
    (s.sqActive = true ∧ s.tx.busy = false ∧ c = ⟨.sequencer, max s.env.clock s.pollTime⟩) ∨
    (∃ k, s.cmdReady = true ∧ s.env.hostScript.head? = some k ∧ c = ⟨.host, max s.env.clock k.time⟩) := by
  simp only [State.candidates, List.mem_append, Option.mem_toList, Option.map_eq_some_iff] at h
  rcases h with (⟨t, ht, rfl⟩ | ⟨a, ha, rfl⟩) | ((h | h) | h)
  · exact .inl ⟨t, ht, rfl⟩
  · exact .inr (.inl ⟨a, ha, rfl⟩)
  · split at h
    · next hw =>
      obtain ⟨w, hw⟩ := Option.isSome_iff_exists.1 hw
      exact .inr (.inr (.inl ⟨w, hw, List.mem_singleton.1 h⟩))
    · cases h
  · split at h
    · next hq =>
      simp only [Bool.and_eq_true, Bool.not_eq_true'] at hq
      exact .inr (.inr (.inr (.inl ⟨hq.1, hq.2, List.mem_singleton.1 h⟩)))
    · cases h
  · split at h
    · next hr =>
      simp only [Option.mem_toList, Option.map_eq_some_iff] at h
      obtain ⟨k, hk, rfl⟩ := h
      exact .inr (.inr (.inr (.inr ⟨k, hr, hk, rfl⟩)))
    · cases h

/-- Nothing comes before the clock. -/
theorem clock_le_candidate {s : State} {c : Candidate} (h : c ∈ s.candidates) : s.env.clock ≤ c.time := by
  rcases mem_candidates h with ⟨t, -, rfl⟩ | ⟨a, -, rfl⟩ | ⟨w, -, rfl⟩ | ⟨-, -, rfl⟩ | ⟨k, -, -, rfl⟩
  · exact Nat.le_max_left _ _
  · exact Nat.le_max_left _ _
  · exact s.clock_le_engineTime
  · exact Nat.le_max_left _ _
  · exact Nat.le_max_left _ _

theorem clock_le_nextEvent {s : State} {c : Candidate} (h : s.nextEvent = some c) : s.env.clock ≤ c.time :=
  clock_le_candidate (earliest_mem h)

/-! ## The step -/

/-- Everything a step can do: nothing, a refusal of a word that is no encoding, or the instruction of the next event. -/
theorem step_cases (s : State) :
    (s.nextEvent = none ∧ step s = .next s.openEvent) ∨
    (∃ c e, s.nextEvent = some c ∧ decode (s.eventPacket c.source) = .error e ∧ step s = .refused (.undecodable e)) ∨
    (∃ c i, s.nextEvent = some c ∧ decode (s.eventPacket c.source) = .ok i ∧ step s = exec i (s.advance c)) := by
  unfold step
  cases hn : s.nextEvent with
  | none => exact .inl ⟨rfl, rfl⟩
  | some c =>
    cases hd : decode (s.eventPacket c.source) with
    | error e => exact .inr (.inl ⟨c, e, rfl, hd, by simp [hd]⟩)
    | ok i => exact .inr (.inr ⟨c, i, rfl, hd, by simp [hd]⟩)

/-- A step that completes is an idle moment or an instruction that completes. -/
theorem step_next {s t : State} (h : step s = .next t) :
    (s.nextEvent = none ∧ t = s.openEvent) ∨
    (∃ c i, s.nextEvent = some c ∧ decode (s.eventPacket c.source) = .ok i ∧ exec i (s.advance c) = .next t) := by
  rcases step_cases s with ⟨hn, hs⟩ | ⟨c, e, -, -, hs⟩ | ⟨c, i, hn, hd, hs⟩
  · rw [hs] at h; cases h; exact .inl ⟨hn, rfl⟩
  · rw [hs] at h; cases h
  · exact .inr ⟨c, i, hn, hd, by rw [← hs]; exact h⟩

/-! ## Being the next event -/

theorem earliest_head {c : Candidate} {l : List Candidate} (h : ∀ d ∈ l, c.time ≤ d.time) :
    earliest (c :: l) = some c := by
  rw [earliest]
  split
  · rfl
  · next d hd => rw [if_pos (h d (earliest_mem hd))]

/-- A candidate earlier than those before it, and no later than those behind, is next. -/
theorem earliest_mid {c : Candidate} {l1 l2 : List Candidate} (h1 : ∀ d ∈ l1, c.time < d.time)
    (h2 : ∀ d ∈ l2, c.time ≤ d.time) : earliest (l1 ++ c :: l2) = some c := by
  induction l1 with
  | nil => exact earliest_head h2
  | cons b bs ih =>
    have hb := h1 b List.mem_cons_self
    rw [List.cons_append, earliest, ih (fun d hd => h1 d (List.mem_cons_of_mem _ hd))]
    dsimp only
    rw [if_neg (by omega)]

/-- With nothing of the environment to come, the engine's event is next. -/
theorem nextEvent_engine {s : State} {w : Wire} (hw : s.tx.nextWire = some w) (hb : s.tx.busy = true)
    (hu : s.undisturbed) : s.nextEvent = some ⟨.engine, s.engineTime⟩ := by
  unfold State.nextEvent State.candidates
  simp [hu.1, hu.2.1, hu.2.2, hw, hb, earliest]

/-- What the engine's wire says of the engine (R134, R135, R137). -/
theorem nextWire_cases {e : Engine} {w : Wire} (h : e.nextWire = some w) :
    e.busy = true ∧ ((e.kind = .init ∧ w = .initEnd) ∨ (e.kind ≠ .init ∧ e.phase.toNat < 67 ∧ w = .txStep) ∨
      (e.kind ≠ .init ∧ e.phase.toNat = 67 ∧ w = .txEnd)) := by
  unfold Engine.nextWire at h
  split at h
  · next hb =>
    refine ⟨hb, ?_⟩
    cases hk : e.kind <;> rw [hk] at h <;> dsimp only at h
    · split at h
      · cases h; simp [*]
      · split at h <;> cases h; simp [*]
    · split at h
      · cases h; simp [*]
      · split at h <;> cases h; simp [*]
    · cases h; simp
  · cases h

/-- At the engine's time its event is due. -/
theorem engineDue_advance (s : State) : (s.advance ⟨.engine, s.engineTime⟩).engineDue = true := by
  simp [State.engineDue, s.engineTime_due]

/-- The engine's event, when it comes, is enabled: it never stops a run. -/
theorem engine_runs {s : State} {w : Wire} (h : s.tx.nextWire = some w) :
    ∃ i, decode ⟨w, 0⟩ = .ok i ∧ ∃ t, exec i (s.advance ⟨.engine, s.engineTime⟩) = .next t := by
  have due := engineDue_advance s
  obtain ⟨hb, ⟨hk, rfl⟩ | ⟨hk, hp, rfl⟩ | ⟨hk, hp, rfl⟩⟩ := nextWire_cases h
  · refine ⟨.initEnd, rfl, ?_⟩
    simp only [exec, execInitEnd]
    exact ⟨_, whenEnabled_true _ (by simp [State.initEndEnabled, due, hb, hk])⟩
  · refine ⟨.txStep, rfl, ?_⟩
    simp only [exec, execTxStep]
    exact ⟨_, whenEnabled_true _ (by simp [State.txStepEnabled, due, hb, hk, hp])⟩
  · refine ⟨.txEnd, rfl, ?_⟩
    simp only [exec, execTxEnd]
    exact ⟨_, whenEnabled_true _ (by simp [State.txEndEnabled, due, hb, hk, hp])⟩

/-- A line unit placed as a packet is that packet. -/
theorem packet_of_lineUnitOf {p : Packet} {u : LineUnit} (h : lineUnitOf p = some u)
    (hp : p.bits.toNat < 2 ^ p.wire.width) : u.packet = p := by
  obtain ⟨w, b⟩ := p
  cases w <;> simp only [lineUnitOf, Option.some.injEq, reduceCtorEq] at h <;> subst h <;>
    simp only [LineUnit.packet, Wire.width] at *
  · rw [setWidth_back _ hp]
  · rw [setWidth_back _ hp]
  · rw [setWidth_back _ hp]
  · congr 1
    simp only [toBool_ofBool]
    have : b.toNat = 0 ∨ b.toNat = 1 := by omega
    rcases this with h | h
    · have hb : b = 0 := BitVec.eq_of_toNat_eq h
      subst hb; rfl
    · have hb : b = 1 := BitVec.eq_of_toNat_eq h
      subst hb; rfl

/-! ## Runs -/

/-- A run that goes on: its first step, then the others. -/
theorem run_first {s t : State} (k : Nat) (h : step s = .next t) :
    Host.Core.run Sys2Proof.core (k + 1) s = Host.Core.run Sys2Proof.core k t := by
  have e := Host.Core.run.eq_2 Sys2Proof.core s k
  have h' : Sys2Proof.core.step s = .next t := h
  rw [h'] at e
  exact e

/-- A run that is refused at its first step. -/
theorem run_first_refused {s : State} {r : Refusal} (k : Nat) (h : step s = .refused r) :
    Host.Core.run Sys2Proof.core (k + 1) s = .refused r := by
  have e := Host.Core.run.eq_2 Sys2Proof.core s k
  have h' : Sys2Proof.core.step s = .refused r := h
  rw [h'] at e
  exact e

/-- A run of one step more. -/
theorem run_last {s t u : State} {k : Nat} (h : Host.Core.run Sys2Proof.core k s = .next t) (hu : step t = .next u) :
    Host.Core.run Sys2Proof.core (k + 1) s = .next u := by
  induction k generalizing s with
  | zero =>
    have hst : (Host.Outcome.next s : Host.Outcome State Fault Refusal) = .next t := h
    cases hst
    rw [run_first 0 hu]; rfl
  | succ k ih =>
    cases hs : step s with
    | next v => rw [run_first k hs] at h; rw [run_first (k + 1) hs]; exact ih h
    | fault r => cases r
    | refused r => rw [run_first_refused k hs] at h; cases h

end Sys2Proof.Machine
end

