-- ==== Sys2Proof/Laws/Waveform.lean ====
section
/-! SUPPORT. Waveforms and their edges (R73, R74, R136): a transmission as a sequence of symbols, the transitions of a
level sequence, arrivals put in order of time, and edges performed one after the other. -/

namespace Sys2Proof.Machine

/-! ## Transitions -/

theorem transitions_append (l : Level) (t : Nat) (a b : List Level) :
    transitions l t (a ++ b) =
      transitions l t a ++ transitions ((l :: a).getLast (by simp)) (t + 500 * a.length) b := by
  induction a generalizing l t with
  | nil => simp [transitions]
  | cons x xs ih =>
    rw [List.cons_append, transitions, transitions]
    have hlast : ((l :: x :: xs).getLast (by simp)) = ((x :: xs).getLast (by simp)) := by simp
    have hlen : t + 500 * (x :: xs).length = t + Config.tHalf + 500 * xs.length := by
      simp only [List.length_cons, Config.tHalf]; omega
    rw [ih, ih, hlast, hlen]
    split
    · next h => subst h; rfl
    · rfl

/-- The edges of a level sequence, one at each half whose level is not that of the half before. -/
theorem transitions_range' (g : Nat → Level) (n a : Nat) (l : Level) (t : Nat) :
    transitions l (t + 500 * a) ((List.range' a n).map g) =
      (List.range' a n).filterMap (fun p =>
        if g p ≠ (if p = a then l else g (p - 1)) then some ⟨t + 500 * p, .edge (g p)⟩ else none) := by
  induction n generalizing a l with
  | zero => rfl
  | succ n ih =>
    rw [List.range'_succ, List.map_cons, transitions, List.filterMap_cons]
    have ht : t + 500 * a + Config.tHalf = t + 500 * (a + 1) := by simp only [Config.tHalf]; omega
    have hc : ∀ l' : Level, l' = g a →
        (List.range' (a + 1) n).filterMap (fun p =>
          if g p ≠ (if p = a + 1 then l' else g (p - 1)) then
            some (⟨t + 500 * p, .edge (g p)⟩ : LineArrival) else none) =
        (List.range' (a + 1) n).filterMap (fun p =>
          if g p ≠ (if p = a then l else g (p - 1)) then some ⟨t + 500 * p, .edge (g p)⟩ else none) := by
      intro l' hl'
      apply List.filterMap_congr
      intro p hp
      have hge : a + 1 ≤ p := (List.mem_range'_1.1 hp).1
      have hne : p ≠ a := by omega
      by_cases hpa : p = a + 1
      · subst hpa; subst hl'; simp
      · simp [hne, hpa]
    rw [ht]
    by_cases h : g a = l
    · subst h
      simp only [if_true, ne_eq, not_true_eq_false, if_false]
      rw [ih]; exact hc _ rfl
    · simp only [h, if_true, ne_eq, not_false_eq_true, if_false]
      rw [ih, hc _ rfl]

/-- A level that is driven already brings no edge. -/
@[simp] theorem transitions_same (l : Level) (t : Nat) (ls : List Level) :
    transitions l t (l :: ls) = transitions l (t + 500) ls := by
  simp [transitions, Config.tHalf]

/-- The other level brings one. -/
theorem transitions_other {l l' : Level} (h : l' ≠ l) (t : Nat) (ls : List Level) :
    transitions l t (l' :: ls) = ⟨t, .edge l'⟩ :: transitions l' (t + 500) ls := by
  simp [transitions, Config.tHalf, h]

theorem time_le_of_mem_transitions {l : Level} {t : Nat} {ls : List Level} {a : LineArrival}
    (h : a ∈ transitions l t ls) : t ≤ a.time := by
  induction ls generalizing l t with
  | nil => cases h
  | cons x xs ih =>
    rw [transitions] at h
    have hh : Config.tHalf = 500 := rfl
    split at h
    · have := ih h; omega
    · rcases List.mem_cons.1 h with rfl | h
      · exact Nat.le_refl _
      · have := ih h; omega

/-- Edges come in order of time. -/
theorem transitions_sorted (l : Level) (t : Nat) (ls : List Level) :
    (transitions l t ls).Pairwise (fun a b => a.time ≤ b.time) := by
  induction ls generalizing l t with
  | nil => exact List.Pairwise.nil
  | cons x xs ih =>
    rw [transitions]
    split
    · exact ih _ _
    · refine List.pairwise_cons.2 ⟨fun b hb => ?_, ih _ _⟩
      have := time_le_of_mem_transitions hb
      dsimp only
      omega

/-! ## Arrivals in order of time -/

/-- An arrival no earlier than all the others is put last. -/
theorem insertArrival_last {a : LineArrival} {l : List LineArrival} (h : ∀ b ∈ l, b.time ≤ a.time) :
    insertArrival a l = l ++ [a] := by
  induction l with
  | nil => rfl
  | cons b bs ih =>
    have := h b List.mem_cons_self
    rw [insertArrival, if_neg (by omega), ih (fun c hc => h c (List.mem_cons_of_mem _ hc))]
    rfl

/-- Arrivals in order of time, all later than those there, are appended. -/
theorem insertArrivals_sorted {new old : List LineArrival}
    (hn : new.Pairwise (fun a b => a.time ≤ b.time)) (ho : ∀ b ∈ old, ∀ a ∈ new, b.time ≤ a.time) :
    insertArrivals new old = old ++ new := by
  unfold insertArrivals
  induction new generalizing old with
  | nil => simp
  | cons a as ih =>
    rw [List.pairwise_cons] at hn
    rw [List.foldl_cons, insertArrival_last (fun b hb => ho b hb a List.mem_cons_self), ih hn.2]
    · simp
    · intro b hb c hc
      rcases List.mem_append.1 hb with hb | hb
      · exact ho b hb c (List.mem_cons_of_mem _ hc)
      · rw [List.mem_singleton.1 hb]; exact hn.1 c hc

/-- No arrival is lost. -/
theorem mem_insertArrival {a b : LineArrival} {l : List LineArrival} (h : b ∈ l) : b ∈ insertArrival a l := by
  induction l with
  | nil => cases h
  | cons c cs ih =>
    rw [insertArrival]
    split
    · exact List.mem_cons_of_mem _ h
    · rcases List.mem_cons.1 h with rfl | h
      · exact List.mem_cons_self
      · exact List.mem_cons_of_mem _ (ih h)

theorem mem_insertArrivals {b : LineArrival} {new old : List LineArrival} (h : b ∈ old) :
    b ∈ insertArrivals new old := by
  unfold insertArrivals
  induction new generalizing old with
  | nil => exact h
  | cons a as ih => exact ih (mem_insertArrival h)

/-- A waveform that arrives writes the edges to come and nothing else. -/
theorem arriveWave_openEvent (levels : List Level) (s : State) :
    s.openEvent.arriveWave levels = { s with
      out := { res := none, done := none }
      env := { s.env with
        lineScript := insertArrivals (transitions s.env.lineIn s.env.clock levels) s.env.lineScript } } := rfl

theorem arriveWord_eq (w : TxWord) (s : State) : s.arriveWord w = s.arriveWave (txWave w ++ [.idle]) := rfl

/-- A row that is a format of the line is its waveform arriving (log 7). -/
theorem exec_lineFormat {i : Instr} (h : isLineFormat i = true) :
    ∃ levels, ∀ s : State, exec i s = .next (s.openEvent.arriveWave levels) := by
  cases i <;> first
    | exact absurd h Bool.false_ne_true
    | exact ⟨_, fun _ => rfl⟩

/-! ## A transmission as symbols -/

/-- Even phases carry the symbol, odd phases its complement (R132). -/
theorem txLevel_even (w : TxWord) (k : Nat) : txLevel w (2 * k) = Level.ofBool (w.getLsbD (33 - k)) := by
  rw [txLevel, show 2 * k / 2 = k by omega, show 2 * k % 2 = 0 by omega]; simp

theorem txLevel_odd (w : TxWord) (k : Nat) : txLevel w (2 * k + 1) = Level.ofBool (!w.getLsbD (33 - k)) := by
  rw [txLevel, show (2 * k + 1) / 2 = k by omega, show (2 * k + 1) % 2 = 1 by omega]; simp

/-- The first `2 k` half-bit levels are `k` symbols. -/
theorem txLevels_symbols (w : TxWord) (k : Nat) :
    (List.range (2 * k)).map (txLevel w) = (List.range k).flatMap (fun j => symbolWave (w.getLsbD (33 - j))) := by
  induction k with
  | zero => rfl
  | succ k ih =>
    rw [show 2 * (k + 1) = 2 * k + 1 + 1 by omega, List.range_succ, List.range_succ, List.range_succ,
      List.map_append, List.map_append, ih, List.flatMap_append]
    simp [symbolWave, txLevel_even, txLevel_odd]

/-- A whole transmission is its 34 symbols, first symbol first (R54, R74). -/
theorem txWave_symbols (w : TxWord) :
    txWave w = (List.range 34).flatMap (fun j => symbolWave (w.getLsbD (33 - j))) := txLevels_symbols w 34

/-- The symbols of a frame's transmission: start, the frame from its most significant bit, stop (R54, R74). -/
theorem txWave_frame (f : Frame) :
    txWave (frameWord f) =
      symbolWave true ++ (List.range 32).flatMap (fun k => symbolWave (f.getLsbD (31 - k))) ++ symbolWave true := by
  have hr : List.range 34 = 0 :: (List.range 32).map Nat.succ ++ [33] := by decide
  have h : ∀ k ∈ List.range 32, symbolWave ((frameWord f).getLsbD (33 - k.succ)) = symbolWave (f.getLsbD (31 - k)) := by
    intro k hk
    have := List.mem_range.1 hk
    rw [frameWord_bit, if_neg (by omega), show 33 - k.succ - 1 = 31 - k by omega]
  have hs : (frameWord f).getLsbD (33 - 0) = true := by rw [frameWord_bit]; rfl
  have he : (frameWord f).getLsbD (33 - 33) = true := by rw [frameWord_bit]; rfl
  rw [txWave_symbols, hr, List.flatMap_append, List.flatMap_cons, List.flatMap_map, List.flatMap_congr h, hs,
    List.flatMap_singleton, he]

/-- A symbol, its first half the level of the line or not: at most a transition at its boundary, and always one in
its middle (R73, R157). -/
theorem transitions_symbol (l : Level) (t : Nat) (b : Bool) (ls : List Level) :
    transitions l t (symbolWave b ++ ls) =
      (if Level.ofBool b = l then [] else [⟨t, .edge (Level.ofBool b)⟩]) ++
        ⟨t + 500, .edge (Level.ofBool (!b))⟩ :: transitions (Level.ofBool (!b)) (t + 1000) ls := by
  have hne : Level.ofBool (!b) ≠ Level.ofBool b := by cases b <;> decide
  rw [symbolWave, List.cons_append, List.cons_append, List.nil_append]
  by_cases h : Level.ofBool b = l
  · subst h
    rw [transitions_same, transitions_other hne, if_pos rfl]; rfl
  · rw [transitions_other h, transitions_other hne, if_neg h]; rfl

/-! ## Edges performed one after the other -/

@[simp] theorem feedEdges_nil (s : State) : feedEdges s [] = .next s := rfl

/-- One edge, at its own time, then the others. -/
theorem feedEdges_edge (s : State) (t : Nat) (l : Level) (rest : List LineArrival) :
    feedEdges s (⟨t, .edge l⟩ :: rest) =
      feedEdges ((State.setLineIn l (State.openEvent { s with env := { s.env with clock := t } })).receive l) rest := by
  have h : decode (LineUnit.packet (.edge l)) = .ok (.edge l) := decode_edgePacket l
  rw [feedEdges]
  simp only [h]
  rfl

/-- A time `d` after the last recorded edge, `d` shorter than the period (R240). -/
theorem elapsed_after {s : State} {t d : Nat} (ht : s.cs.lastEdgeTimestamp = t % s.period) (hc : s.env.clock = t + d)
    (hd : d < s.period) : s.elapsed = d := by
  have hP := s.period_pos
  have hm := Nat.mod_lt t hP
  rw [State.elapsed, State.now, ht, hc, Nat.mod_mod, Nat.add_mod, Nat.mod_mod, ← Nat.add_mod]
  have hd' := Nat.div_add_mod t s.period
  have : t + d + (s.period - t % s.period) = d + s.period * (t / s.period + 1) := by
    rw [Nat.mul_add, Nat.mul_one]; omega
  rw [this, Nat.add_mul_mod_self_left, Nat.mod_eq_of_lt hd]

/-! ## Reception, symbol by symbol (R156, R157, R161) -/

/-- One received bit: the complement of the level at the bottom, the others one place up (R157). -/
theorem shiftIn_bit (f : Frame) (l : Level) (j : Nat) :
    (shiftIn f l).getLsbD j = if j = 0 then l == .idle else (decide (j < 32) && f.getLsbD (j - 1)) := by
  unfold shiftIn
  have h : zext (levelCode (invert l)) = if l = .idle then 1 else 0 := by cases l <;> rfl
  rw [h]
  by_cases hj : j = 0
  · subst hj; cases l <;> simp
  · cases l <;> simp [hj, BitVec.getLsbD_shiftLeft, BitVec.getLsbD_one]

/-- An edge at least 1000 µs after the last, while bits are received, is one bit. -/
theorem receive_bit {v : State} {l : Level} (he : v.cs.edgeEnable = true) (hs : v.cs.status = .receiving)
    (hc : v.cs.receivedBitCount.toNat < 32) (hel : v.elapsed = 1000) :
    (v.receive l).cs = { v.cs with
      pendingFrame := shiftIn v.cs.pendingFrame l
      receivedBitCount := v.cs.receivedBitCount + 1
      lastEdgeTimestamp := v.now } := by
  have h1 : ¬ (1000 ≤ Config.tMid) := by decide
  simp only [State.receive, he, if_true, hs, State.sample, hel, h1, if_false, show Config.nBits = 32 from rfl, hc]
  simp [State.stamp, he]

/-- An edge 500 µs after the last, while bits are received, is filtered out (R156). -/
theorem receive_filtered {v : State} (l : Level) (he : v.cs.edgeEnable = true) (hs : v.cs.status = .receiving)
    (hel : v.elapsed = 500) : v.receive l = v := by
  simp [State.receive, he, hs, State.sample, hel, Config.tMid]

/-- The state in which an edge to `l` at time `t` is received. -/
def State.atEdge (s : State) (t : Nat) (l : Level) : State :=
  State.setLineIn l (State.openEvent { s with env := { s.env with clock := t } })

theorem feedEdges_atEdge (s : State) (t : Nat) (l : Level) (rest : List LineArrival) :
    feedEdges s (⟨t, .edge l⟩ :: rest) = feedEdges ((s.atEdge t l).receive l) rest := feedEdges_edge s t l rest

@[simp] theorem State.atEdge_cs (s : State) (t : Nat) (l : Level) : (s.atEdge t l).cs = s.cs := rfl
@[simp] theorem State.atEdge_tx (s : State) (t : Nat) (l : Level) : (s.atEdge t l).tx = s.tx := rfl
@[simp] theorem State.atEdge_lineOut (s : State) (t : Nat) (l : Level) : (s.atEdge t l).lineOut = s.lineOut := rfl
@[simp] theorem State.atEdge_sqActive (s : State) (t : Nat) (l : Level) : (s.atEdge t l).sqActive = s.sqActive := rfl
@[simp] theorem State.atEdge_params (s : State) (t : Nat) (l : Level) : (s.atEdge t l).params = s.params := rfl
@[simp] theorem State.atEdge_period (s : State) (t : Nat) (l : Level) : (s.atEdge t l).period = s.period := rfl
@[simp] theorem State.atEdge_now (s : State) (t : Nat) (l : Level) : (s.atEdge t l).now = t % s.period := rfl
@[simp] theorem State.atEdge_clock (s : State) (t : Nat) (l : Level) : (s.atEdge t l).env.clock = t := rfl

/-- What an edge leaves alone besides the Channel State. -/
theorem atEdge_receive_frame (s : State) (t : Nat) (l : Level) :
    ((s.atEdge t l).receive l).tx = s.tx ∧ ((s.atEdge t l).receive l).lineOut = s.lineOut ∧
    ((s.atEdge t l).receive l).sqActive = s.sqActive ∧ ((s.atEdge t l).receive l).params = s.params := by
  have fr := receive_frame l (s.atEdge t l)
  simp only [State.atEdge_tx, State.atEdge_lineOut, State.atEdge_sqActive, State.atEdge_params] at fr
  exact ⟨fr.1, fr.2.1, fr.2.2.1, fr.2.2.2.2.2.2.1⟩

/-- A symbol's edges, its first half beginning 500 µs after the last recorded edge: the boundary edge, where there is
one, is filtered out, and the middle edge is the bit. -/
theorem feed_symbol {s : State} {T : Nat} {l : Level} {b : Bool} {rest : List Level}
    (he : s.cs.edgeEnable = true) (hs : s.cs.status = .receiving) (hc : s.cs.receivedBitCount.toNat < 32)
    (hP : 1000 < s.period) (ht : s.cs.lastEdgeTimestamp = T % s.period) :
    ∃ t : State, feedEdges s (transitions l (T + 500) (symbolWave b ++ rest)) =
        feedEdges t (transitions (Level.ofBool (!b)) (T + 1500) rest) ∧
      t.cs = { s.cs with
        pendingFrame := shiftIn s.cs.pendingFrame (Level.ofBool (!b))
        receivedBitCount := s.cs.receivedBitCount + 1
        lastEdgeTimestamp := (T + 1000) % s.period } ∧
      t.tx = s.tx ∧ t.lineOut = s.lineOut ∧ t.sqActive = s.sqActive ∧ t.params = s.params := by
  have bit : ∀ u : State, u.cs = s.cs → u.period = s.period →
      ((u.atEdge (T + 1000) (Level.ofBool (!b))).receive (Level.ofBool (!b))).cs = { s.cs with
        pendingFrame := shiftIn s.cs.pendingFrame (Level.ofBool (!b))
        receivedBitCount := s.cs.receivedBitCount + 1
        lastEdgeTimestamp := (T + 1000) % s.period } := by
    intro u hu hp
    have hel : (u.atEdge (T + 1000) (Level.ofBool (!b))).elapsed = 1000 :=
      elapsed_after (t := T) (by simp [hu, hp, ht]) rfl (by simpa [hp] using hP)
    rw [receive_bit (by simpa [hu] using he) (by simpa [hu] using hs) (by simpa [hu] using hc) hel]
    simp [hu, hp]
  rw [transitions_symbol]
  by_cases hb : Level.ofBool b = l
  · rw [if_pos hb, List.nil_append, feedEdges_atEdge]
    exact ⟨_, rfl, bit s rfl rfl, atEdge_receive_frame _ _ _⟩
  · have hel : (s.atEdge (T + 500) (Level.ofBool b)).elapsed = 500 :=
      elapsed_after (t := T) (by simp [ht]) rfl (by simp; omega)
    rw [if_neg hb, List.singleton_append, feedEdges_atEdge,
      receive_filtered _ (by simpa using he) (by simpa using hs) hel, feedEdges_atEdge]
    exact ⟨_, rfl, bit _ rfl rfl, atEdge_receive_frame _ _ _⟩

/-- The first `n` symbols of a frame, from its most significant bit: `n` bits, the last at the bottom (R54, R157). -/
theorem feed_bits (f : Frame) {n : Nat} (hn : n ≤ 32) {s : State} {T : Nat} {l : Level} {rest : List Level}
    (he : s.cs.edgeEnable = true) (hs : s.cs.status = .receiving) (hc : s.cs.receivedBitCount = 0)
    (hP : 1000 < s.period) (ht : s.cs.lastEdgeTimestamp = T % s.period) :
    ∃ (t : State) (l' : Level),
      feedEdges s (transitions l (T + 500)
          ((List.range n).flatMap (fun k => symbolWave (f.getLsbD (31 - k))) ++ rest)) =
        feedEdges t (transitions l' (T + 1000 * n + 500) rest) ∧
      t.cs = { s.cs with
        pendingFrame := t.cs.pendingFrame
        receivedBitCount := BitVec.ofNat 6 n
        lastEdgeTimestamp := (T + 1000 * n) % s.period } ∧
      (∀ j, j < n → t.cs.pendingFrame.getLsbD j = f.getLsbD (32 - n + j)) ∧
      t.tx = s.tx ∧ t.lineOut = s.lineOut ∧ t.sqActive = s.sqActive ∧ t.params = s.params := by
  induction n generalizing rest with
  | zero =>
    refine ⟨s, l, rfl, ?_, by simp, rfl, rfl, rfl, rfl⟩
    have h0 : s.cs.receivedBitCount = BitVec.ofNat 6 0 := hc
    rw [← h0, Nat.mul_zero, Nat.add_zero, ← ht]
  | succ n ih =>
    obtain ⟨t, l', h1, h2, h3, h4⟩ := ih (by omega) (rest := symbolWave (f.getLsbD (31 - n)) ++ rest)
    have hp : t.period = s.period := by simp [State.period, h4]
    have hlt : n < 64 := by omega
    obtain ⟨u, g1, g2, g3⟩ := feed_symbol (s := t) (T := T + 1000 * n) (l := l') (b := f.getLsbD (31 - n))
      (rest := rest) (by rw [h2]; exact he) (by rw [h2]; exact hs) (by rw [h2]; simp; omega) (by rw [hp]; exact hP)
      (by rw [hp, h2])
    refine ⟨u, Level.ofBool (!f.getLsbD (31 - n)), ?_, ?_, ?_, ?_⟩
    · rw [List.range_succ, List.flatMap_append, List.flatMap_singleton, List.append_assoc, h1, g1,
        show T + 1000 * n + 1500 = T + 1000 * (n + 1) + 500 by omega]
    · rw [g2, h2, hp, show T + 1000 * n + 1000 = T + 1000 * (n + 1) by omega]
      have hinc : BitVec.ofNat 6 n + 1 = BitVec.ofNat 6 (n + 1) := by
        apply BitVec.eq_of_toNat_eq; simp
      simp only [hinc]
    · intro j hj
      rw [g2]
      dsimp only
      rw [shiftIn_bit]
      by_cases hj0 : j = 0
      · subst hj0
        rw [if_pos rfl, show 32 - (n + 1) + 0 = 31 - n by omega]
        cases f.getLsbD (31 - n) <;> rfl
      · rw [if_neg hj0, h3 _ (by omega), show 32 - n + (j - 1) = 32 - (n + 1) + j by omega]
        simp [show j < 32 by omega]
    · rw [h4.1, h4.2.1, h4.2.2.1, h4.2.2.2] at g3
      exact g3

/-- The start symbol on an idle line: a candidate start bit, confirmed 500 µs later (R153, R154, R155). -/
theorem feed_start {s : State} {t0 : Nat} {rest : List Level} (he : s.cs.edgeEnable = true)
    (hs : s.cs.status = .awaitingResponse ∨ (s.cs.status = .ready ∧ s.cs.role = .slave)) (hP : 1000 < s.period) :
    ∃ t : State, feedEdges s (transitions .idle t0 (symbolWave true ++ rest)) =
        feedEdges t (transitions .idle (t0 + 1000) rest) ∧
      t.cs = { s.cs with status := .receiving, receivedBitCount := 0, lastEdgeTimestamp := (t0 + 500) % s.period } ∧
      t.tx = s.tx ∧ t.lineOut = s.lineOut ∧ t.sqActive = s.sqActive ∧ t.params = s.params := by
  rw [transitions_symbol, if_neg (by decide), List.singleton_append, feedEdges_atEdge, feedEdges_atEdge]
  have e1 : (s.atEdge t0 (Level.ofBool true)).receive (Level.ofBool true) =
      (s.atEdge t0 (Level.ofBool true)).stamp .receivedStartBit := by
    rcases hs with hs | ⟨hs, hr⟩ <;> simp [State.receive, State.firstEdge, Level.ofBool, *]
  rw [e1]
  have hel : ((State.stamp .receivedStartBit (s.atEdge t0 (Level.ofBool true))).atEdge (t0 + 500)
      (Level.ofBool (!true))).elapsed = 500 :=
    elapsed_after (t := t0) rfl rfl (by change 500 < s.period; omega)
  refine ⟨_, rfl, ?_, atEdge_receive_frame _ _ _⟩
  generalize hw : (State.stamp .receivedStartBit (s.atEdge t0 (Level.ofBool true))) = w at hel ⊢
  have hwc : w.cs = { s.cs with status := .receivedStartBit, lastEdgeTimestamp := t0 % s.period } := by subst hw; rfl
  have hwp : w.period = s.period := by subst hw; rfl
  have hlt : 500 < Config.tMid ∧ Level.ofBool (!true) = .idle := by decide
  simp only [State.receive, State.atEdge_cs, hwc, he, if_true, State.confirmStart, hel, if_pos hlt]
  simp [State.stamp, hwc, hwp, he]

/-- The stop symbol after 32 bits (R156, R158). `E` is the time of its middle edge. -/
theorem feed_stop {s : State} {T E : Nat} {l : Level} (hE : T + 1000 = E)
    (he : s.cs.edgeEnable = true) (hs : s.cs.status = .receiving) (hc : s.cs.receivedBitCount = 32)
    (hP : 1000 < s.period) (ht : s.cs.lastEdgeTimestamp = T % s.period) :
    ∃ t : State, feedEdges s (transitions l (T + 500) (symbolWave true)) = .next t ∧
      t.cs = { s.cs with status := .responseReady, lastEdgeTimestamp := E % s.period } ∧
      t.tx = s.tx ∧ t.lineOut = s.lineOut ∧ t.sqActive = s.sqActive ∧ t.params = s.params := by
  subst hE
  have stop : ∀ u : State, u.cs = s.cs → u.period = s.period →
      ((u.atEdge (T + 1000) (Level.ofBool (!true))).receive (Level.ofBool (!true))).cs = { s.cs with
        status := .responseReady, lastEdgeTimestamp := (T + 1000) % s.period } := by
    intro u hu hp
    have hel : (u.atEdge (T + 1000) (Level.ofBool (!true))).elapsed = 1000 :=
      elapsed_after (t := T) (by simp [hu, hp, ht]) rfl (by simpa [hp] using hP)
    have h1 : ¬ (1000 ≤ Config.tMid) := by decide
    have h2 : ¬ ((32 : BitVec 6).toNat < Config.nBits) := by decide
    have h3 : (32 : BitVec 6).toNat = Config.nBits := by decide
    simp only [State.receive, State.atEdge_cs, hu, he, hs, if_true, State.sample, hel, h1, if_false, hc, h3]
    simp [State.stamp, hu, hp, he, hc]
  have h := transitions_symbol l (T + 500) true []
  rw [List.append_nil] at h
  rw [h]
  by_cases hb : Level.ofBool true = l
  · rw [if_pos hb, List.nil_append, feedEdges_atEdge, transitions, feedEdges_nil]
    exact ⟨_, rfl, stop s rfl rfl, atEdge_receive_frame _ _ _⟩
  · have hel : (s.atEdge (T + 500) (Level.ofBool true)).elapsed = 500 :=
      elapsed_after (t := T) (by simp [ht]) rfl (by simp; omega)
    rw [if_neg hb, List.singleton_append, feedEdges_atEdge,
      receive_filtered _ (by simpa using he) (by simpa using hs) hel, feedEdges_atEdge, transitions, feedEdges_nil]
    exact ⟨_, rfl, stop _ rfl rfl, atEdge_receive_frame _ _ _⟩

end Sys2Proof.Machine
end

