-- ==== Sys2Proof/Tests/Slice0.lean ====
section
/-! SUPPORT. Tests: the checks of WellFormed refuse ill-formed terms; words written out from the spec's encodings decode;
small executions whose results are the spec's own vectors (95_test_vectors.md) or examples; and a witness for every
statement that has hypotheses. -/

namespace Sys2Proof.Tests

open Sys2Proof.Machine

/-! ## WellFormed refuses -/

theorem test_wf_readData : (Instr.frameReadData 0x10000000).wellFormed = false := by decide
theorem test_wf_writeData : (Instr.frameWriteData 0x00000000).wellFormed = false := by decide
theorem test_wf_invalidData : (Instr.frameInvalidData 0x30000000).wellFormed = false := by decide
theorem test_wf_reserved : (Instr.frameReserved 0x20000000).wellFormed = false := by decide
theorem test_wf_readAck : (Instr.frameReadAck 0x50000000).wellFormed = false := by decide
theorem test_wf_writeAck : (Instr.frameWriteAck 0x40000000).wellFormed = false := by decide
theorem test_wf_dataInvalid : (Instr.frameDataInvalid 0x70000000).wellFormed = false := by decide
theorem test_wf_unknownDataId : (Instr.frameUnknownDataId 0x60000000).wellFormed = false := by decide
theorem test_wf_txWord_start : (Instr.txWord 0x100320001).wellFormed = false := by decide
theorem test_wf_txWord_stop : (Instr.txWord 0x300320000).wellFormed = false := by decide

/-! ## Decoding: `OP` 5 bits, `B` 16 bits, `A` 32 bits (R79, R80) -/

theorem test_decode_parity : decodeTableWord 56
    0b00000_0000000000000000_11000000000110010010110101000000 = some (.parity 0xC0192D40) := by decide
theorem test_decode_buildRequest : decodeTableWord 56
    0b00001_0000000000000000_1_001_1111_00000001_0011110010000000 = some (.buildRequest .writeData 1 0x3C80) := by
  decide
theorem test_decode_buildResponse : decodeTableWord 56
    0b00010_0000000000000000_0_100_0000_00011001_0010110101000000 = some (.buildResponse .readAck 25 0x2D40) := by
  decide
theorem test_decode_getMessageType : decodeTableWord 56
    0b00011_0000000000000000_11000000000110010010110101000000 = some (.getMessageType 0xC0192D40) := by decide
theorem test_decode_getDataId : decodeTableWord 56
    0b00100_0000000000000000_11000000000110010010110101000000 = some (.getDataId 0xC0192D40) := by decide
theorem test_decode_getUInt16 : decodeTableWord 56
    0b00101_0000000000000000_11000000000110010010110101000000 = some (.getUInt16 0xC0192D40) := by decide
theorem test_decode_getInt16 : decodeTableWord 56
    0b00110_0000000000000000_11000000000110010010110101000000 = some (.getInt16 0xC0192D40) := by decide
theorem test_decode_getFloat : decodeTableWord 56
    0b00111_0000000000000000_11000000000110010010110101000000 = some (.getFloat 0xC0192D40) := by decide
theorem test_decode_getUbUInt8 : decodeTableWord 56
    0b01000_0000000000000000_11000000000110010010110101000000 = some (.getUbUInt8 0xC0192D40) := by decide
theorem test_decode_getLbUInt8 : decodeTableWord 56
    0b01001_0000000000000000_11000000000110010010110101000000 = some (.getLbUInt8 0xC0192D40) := by decide
theorem test_decode_temperatureToData : decodeTableWord 56
    0b01010_0000000000000000_00000000001111001000000000000000 = some (.temperatureToData 0x003C8000) := by decide
theorem test_decode_isValidRequest : decodeTableWord 56
    0b01011_0000000000000000_11000000000110010010110101000000 = some (.isValidRequest 0xC0192D40) := by decide
theorem test_decode_isValidResponse : decodeTableWord 56
    0b01100_0000000000000000_11000000000110010010110101000000 = some (.isValidResponse 0xC0192D40) := by decide
theorem test_decode_modifyMsgData : decodeTableWord 56
    0b01101_0001010101100000_10010000000000010011110010000000 = some (.modifyMsgData 0x90013C80 0x1560) := by decide
theorem test_decode_initChannel : decodeTableWord 56 0b10000_0000000000000001_00000000000000000000000000000001 =
    some .initChannel := by decide
theorem test_decode_tick : decodeTableWord 56 0b10001_0000000000000000_00000000000000000000000000000000 =
    some .tick := by decide
theorem test_decode_sendRequestAsync : decodeTableWord 56
    0b10010_0000000000000000_10000000000110010000000000000000 = some (.sendRequestAsync 0x80190000) := by decide
theorem test_decode_sendRequest : decodeTableWord 56
    0b10011_0000000000000000_10000000000110010000000000000000 = some (.sendRequest 0x80190000) := by decide
theorem test_decode_sendResponse : decodeTableWord 56
    0b10100_0000000000000000_01010000000000010011110010000000 = some (.sendResponse 0x50013C80) := by decide
theorem test_decode_isReady : decodeTableWord 56 0b10101_0000000000000000_00000000000000000000000000000000 =
    some .isReady := by decide
theorem test_decode_getLastResponseStatus :
    decodeTableWord 56 0b10110_0000000000000000_00000000000000000000000000000000 = some .getLastResponseStatus := by
  decide
theorem test_decode_reserved_low : decodeTableWord 56 0x0E000000000000 = some .reservedCmd0E ∧
    decodeTableWord 56 0x0F000000000000 = some .reservedCmd0F := by decide
theorem test_decode_reserved_high :
    decodeTableWord 56 0x17000000000000 = some .reservedCmd17 ∧
    decodeTableWord 56 0x18000000000000 = some .reservedCmd18 ∧
    decodeTableWord 56 0x19000000000000 = some .reservedCmd19 ∧
    decodeTableWord 56 0x1A000000000000 = some .reservedCmd1A ∧
    decodeTableWord 56 0x1B000000000000 = some .reservedCmd1B ∧
    decodeTableWord 56 0x1C000000000000 = some .reservedCmd1C ∧
    decodeTableWord 56 0x1D000000000000 = some .reservedCmd1D ∧
    decodeTableWord 56 0x1E000000000000 = some .reservedCmd1E ∧
    decodeTableWord 56 0x1F000000000000 = some .reservedCmd1F := by decide
theorem test_decode_tooWide : decodeTableWord 56 0x20000000000000 = none := by decide

/-! Frames: parity, type in bits 30 to 28, spare, data-ID, data value (R70, R71). -/

theorem test_decode_frameReadData : decodeTableWord 32 0b1_000_0000_00011001_0000000000000000 =
    some (.frameReadData 0x80190000) := by decide
theorem test_decode_frameWriteData : decodeTableWord 32 0b1_001_0000_00000001_0011110010000000 =
    some (.frameWriteData 0x90013C80) := by decide
theorem test_decode_frameInvalidData : decodeTableWord 32 0b1_010_0000_00000000_0000000000000000 =
    some (.frameInvalidData 0xA0000000) := by decide
theorem test_decode_frameReserved : decodeTableWord 32 0b0_011_0000_00000000_0000000000000000 =
    some (.frameReserved 0x30000000) := by decide
theorem test_decode_frameReadAck : decodeTableWord 32 0b1_100_0000_00011001_0010110101000000 =
    some (.frameReadAck 0xC0192D40) := by decide
theorem test_decode_frameWriteAck : decodeTableWord 32 0b0_101_0000_00000001_0011110010000000 =
    some (.frameWriteAck 0x50013C80) := by decide
theorem test_decode_frameDataInvalid : decodeTableWord 32 0b0_110_0000_00000000_0000000000000000 =
    some (.frameDataInvalid 0x60000000) := by decide
theorem test_decode_frameUnknownDataId : decodeTableWord 32 0b1_111_0000_11111111_1111111111111111 =
    some (.frameUnknownDataId 0xF0FFFFFF) := by decide

/-! Symbols (R73), the transmission word (R74), the events (R82). -/

theorem test_decode_symbols : decodeTableWord 8 0b10 = some .symbolBit1 ∧ decodeTableWord 8 0b01 = some .symbolBit0 ∧
    decodeTableWord 8 0b11 = none := by decide
theorem test_decode_txWord : decodeTableWord 40 0b1_10000000000110010000000000000000_1 =
    some (.txWord 0x300320001) := by decide
theorem test_decode_edge : decode ⟨.edge, 1⟩ = .ok (.edge .active) ∧ decode ⟨.edge, 0⟩ = .ok (.edge .idle) := ⟨rfl, rfl⟩
theorem test_decode_signals : decode ⟨.rst, 0⟩ = .ok .reset ∧ decode ⟨.txStep, 0⟩ = .ok .txStep ∧
    decode ⟨.txEnd, 0⟩ = .ok .txEnd ∧ decode ⟨.initBegin, 0⟩ = .ok .initBegin ∧
    decode ⟨.initEnd, 0⟩ = .ok .initEnd := ⟨rfl, rfl, rfl, rfl, rfl⟩
theorem test_decode_noSymbol : decode ⟨.symbol, 0⟩ = .error .noSymbol := rfl
theorem test_decode_notFramed : decode ⟨.txWord, 0x100320001⟩ = .error .notFramed := rfl

/-! ## States to test in -/

/-- The state after an outcome. -/
def nextOf : Host.Outcome State Fault Refusal → Option State
  | .next t => some t
  | .fault _ | .refused _ => none

/-- The refusal of an outcome. -/
def refusalOf : Host.Outcome State Fault Refusal → Option Refusal
  | .refused r => some r
  | .next _ | .fault _ => none

/-- The result, the completion, the status and the last response status after an outcome. -/
def resultOf (o : Host.Outcome State Fault Refusal) : Option Word := (nextOf o).bind (fun t => t.out.res)
def doneOf (o : Host.Outcome State Fault Refusal) : Option Completion := (nextOf o).bind (fun t => t.out.done)
def statusOf (o : Host.Outcome State Fault Refusal) : Option Status := (nextOf o).map (fun t => t.cs.status)
def lineOf (o : Host.Outcome State Fault Refusal) : Option Level := (nextOf o).map (fun t => t.lineOut)

/-- An initialised master with the given status, timestamp and time. -/
def channel (st : Status) (stamp clock : Nat) : State :=
  { State.reset with
    cs := { State.reset.cs with status := st, lastEdgeTimestamp := stamp, edgeEnable := true }
    env := { State.reset.env with clock := clock } }

/-- The same with a pending frame and a bit count. -/
def holding (st : Status) (stamp clock : Nat) (f : Frame) (n : BitVec 6) : State :=
  { channel st stamp clock with
    cs := { (channel st stamp clock).cs with pendingFrame := f, receivedBitCount := n } }

/-- The same as a slave. -/
def slave (st : Status) (stamp clock : Nat) : State :=
  { channel st stamp clock with cs := { (channel st stamp clock).cs with role := .slave } }

/-- A transmission of `0x80190000` begun at 1,000,000, in a phase, at a time. -/
def sending (k : TxKind) (st : Status) (p : BitVec 7) (l : Level) (clock : Nat) : State :=
  { channel st 0 clock with
    lineOut := l
    tx := { busy := true, kind := k, word := 0x300320001, phase := p, t0 := 1000000 } }

/-- A `SEND_REQUEST` whose request has been sent, at a time, the last tick before it. -/
def polling (st : Status) (stamp clock : Nat) : State :=
  { holding st stamp clock 0xC0192D40 32 with sqActive := true, poll := { schedule := [], after := stamp, count := 0 } }

/-! ## Frame Codec (vectors V1 to V34a) -/

theorem test_parity : resultOf (exec (.parity 0xC0192D40) State.reset) = some 0 ∧
    resultOf (exec (.parity 0x40192D40) State.reset) = some 1 := by decide
theorem test_buildRequest : resultOf (exec (.buildRequest .readData 25 0) State.reset) = some 0x80190000 ∧
    resultOf (exec (.buildRequest .writeData 1 0x3C80) State.reset) = some 0x90013C80 := by decide
theorem test_buildResponse : resultOf (exec (.buildResponse .readAck 25 0x2D40) State.reset) = some 0xC0192D40 ∧
    resultOf (exec (.buildResponse .unknownDataId 255 0xFFFF) State.reset) = some 0xF0FFFFFF := by decide
theorem test_getMessageType : resultOf (exec (.getMessageType 0xF0FFFFFF) State.reset) = some 7 := by decide
theorem test_getDataId : resultOf (exec (.getDataId 0x0F191234) State.reset) = some 0x19 := by decide
theorem test_getUInt16 : resultOf (exec (.getUInt16 0x0000FF80) State.reset) = some 65408 := by decide
theorem test_getInt16 : resultOf (exec (.getInt16 0x0000FF80) State.reset) = some 0xFFFFFF80 := by decide
theorem test_getFloat : resultOf (exec (.getFloat 0xC0192D40) State.reset) = some 0x2D40 ∧
    resultOf (exec (.getFloat 0xFFFFFFFF) State.reset) = some 0xFFFFFFFF := by decide
theorem test_getUbUInt8 : resultOf (exec (.getUbUInt8 0xC0192D40) State.reset) = some 45 := by decide
theorem test_getLbUInt8 : resultOf (exec (.getLbUInt8 0xC0192D40) State.reset) = some 64 := by decide
theorem test_temperature_clamps : resultOf (exec (.temperatureToData 0xFFFB0000) State.reset) = some 0 ∧
    resultOf (exec (.temperatureToData 0x00641999) State.reset) = some 0x6400 := by decide
theorem test_temperature_truncates : resultOf (exec (.temperatureToData 0x003C8000) State.reset) = some 0x3C80 ∧
    resultOf (exec (.temperatureToData 0x0063FFFF) State.reset) = some 0x63FF := by decide
theorem test_isValidRequest : resultOf (exec (.isValidRequest 0x80190000) State.reset) = some 1 ∧
    resultOf (exec (.isValidRequest 0x30000000) State.reset) = some 0 := by decide
theorem test_isValidResponse : resultOf (exec (.isValidResponse 0xFFFFFFFF) State.reset) = some 1 ∧
    resultOf (exec (.isValidResponse 0x30000000) State.reset) = some 0 := by decide
theorem test_modifyMsgData : resultOf (exec (.modifyMsgData 0x8F192D40 0x1234) State.reset) = some 0x0F191234 ∧
    resultOf (exec (.modifyMsgData 0x40192D40 0x2D40) State.reset) = some 0xC0192D40 := by decide

/-! ## Channel Controller (the examples of R171 to R184) -/

theorem test_initialise_begins : (nextOf (exec .initChannel State.reset)).map (fun t => (t.tx.busy, t.tx.kind)) =
    some (true, .init) := by decide
theorem test_tick_invalid : doneOf (exec .tick (channel .responseInvalid 1050750 1051000)) =
    some ⟨0, .invalidStart⟩ := by decide
theorem test_tick_timeout :
    doneOf (exec .tick (holding .receiving 1091500 2091501 0x600C96A0 31)) = some ⟨0x600C96A0, .timeout⟩ ∧
    doneOf (exec .tick (channel .awaitingResponse 1034000 2034000)) = none := by decide
theorem test_sendRequestAsync : (nextOf (exec (.sendRequestAsync 0x80190000) (channel .ready 0 1000000))).map
    (fun t => (t.tx.word, t.lineOut, t.cs.status)) = some (0x300320001, .active, .sending) := by decide
theorem test_sendRequestAsync_rejected :
    resultOf (exec (.sendRequestAsync 0x80190000) (channel .delay 1093500 1100000)) = some 0 := by decide
theorem test_sendRequest : (nextOf (exec (.sendRequest 0x80190000) (channel .ready 0 1000000))).map
    (fun t => (t.sqActive, t.cs.status)) = some (true, .sending) := by decide
theorem test_sendRequest_returns :
    resultOf (exec .tick (polling .delay 1093500 1194000)) = some 0xC0192D40 := by decide
theorem test_sendResponse : (nextOf (exec (.sendResponse 0x50013C80) (slave .delay 1093500 1100000))).map
    (fun t => (t.tx.kind, t.cs.status)) = some (.response, .delay) := by decide
theorem test_isReady : resultOf (exec .isReady State.reset) = some 0 ∧
    resultOf (exec .isReady (channel .ready 0 1000000)) = some 1 := by decide
theorem test_getLastResponseStatus : resultOf (exec .getLastResponseStatus State.reset) = some 5 := by decide
theorem test_reserved : refusalOf (exec .reservedCmd17 State.reset) = some (.reservedCommand 0x17) := by decide

/-! ## Engine, edges, reset (the examples of R134, R135, R137, R153 to R158, R230) -/

theorem test_txStep : lineOf (exec .txStep (sending .request .sending 0 .active 1000500)) = some .idle ∧
    lineOf (exec .txStep (sending .request .sending 1 .idle 1001000)) = some .active := by decide
theorem test_txStep_sameLevel : lineOf (exec .txStep (sending .request .sending 3 .idle 1002000)) = some .idle := by
  decide
theorem test_txEnd_request : (nextOf (exec .txEnd (sending .request .sending 67 .idle 1034000))).map
    (fun t => (t.cs.status, t.cs.lastEdgeTimestamp, t.out.res)) = some (.awaitingResponse, 1034000, some 1) := by decide
theorem test_txEnd_response : (nextOf (exec .txEnd (sending .response .receiving 67 .idle 1034000))).map
    (fun t => (t.cs.status, t.cs.lastEdgeTimestamp, t.out.res)) = some (.ready, 0, some 1) := by decide
theorem test_initEnd :
    (nextOf (exec .initEnd { State.reset with
      tx := { State.reset.tx with busy := true, kind := .init }, env := { State.reset.env with clock := 1000000 } })).map
    (fun t => (t.cs.status, t.cs.edgeEnable, t.cs.lastEdgeTimestamp)) = some (.ready, true, 0) := by decide
theorem test_initBegin : lineOf (exec .initBegin State.reset) = some .idle := by decide
theorem test_edge_start : statusOf (exec (.edge .active) (slave .ready 0 2000000)) = some .receivedStartBit ∧
    statusOf (exec (.edge .active) (channel .ready 0 2000000)) = some .ready := by decide
theorem test_edge_bit : (nextOf (exec (.edge .active) (holding .receiving 1062500 1063500 0x00000003 2))).map
    (fun t => (t.cs.pendingFrame, t.cs.receivedBitCount, t.cs.lastEdgeTimestamp)) =
    some (0x00000006, 3, 1063500) := by decide
theorem test_reset : (nextOf (exec .reset (sending .request .sending 5 .active 1003000))).map
    (fun t => (t.cs.status, t.tx.busy, t.lineOut)) = some (.uninitialized, false, .idle) := by decide

/-! ## Waveforms arriving (R73, R136; log 7) -/

theorem test_frame_transitions : (frameEdges 0x80190000 0).length = 62 ∧ (frameEdges 0xFFFFFFFF 0).length = 68 := by
  decide
theorem test_frame_arrives : (nextOf (exec (.frameReadAck 0xC0192D40) State.reset)).map
    (fun t => (t.env.lineScript.length, t.env.lineScript.head?)) = some (54, some ⟨0, .edge .active⟩) := by decide
theorem test_symbol_arrives : (nextOf (exec .symbolBit0 State.reset)).map (fun t => t.env.lineScript) =
    some [⟨500, .edge .active⟩] := by decide

/-! ## One step of the machine -/

theorem test_step_command : resultOf (step (State.reset.withFetchWord 56 0x0000C0192D40)) = some 0 := by decide
theorem test_step_edge : (nextOf (step (State.reset.withFetchWord 1 1))).map (fun t => t.env.lineIn) =
    some .active := by decide

/-! ## Witnesses: every statement's hypotheses are met together, each clause at the ends of its range -/

theorem witness_CommandWordsDecodeByTheirCode : (0x17 : BitVec 5).toNat = 23 ∧ 0x17 ≤ (0x17 : BitVec 5).toNat ∧
    0x17 ≤ (0x1F : BitVec 5).toNat := by decide
theorem witness_DecodeOfEncode : (Instr.txWord 0x300320001).wellFormed = true ∧
    (Instr.txWord 0x3FFFFFFFF).wellFormed = true ∧ (Instr.frameReadData 0x00000000).wellFormed = true ∧
    (Instr.frameUnknownDataId 0xFFFFFFFF).wellFormed = true ∧ Instr.tick.wellFormed = true := by decide
theorem witness_DecodedIsWellFormed : decode ⟨.frame, 0xC0192D40⟩ = .ok (.frameReadAck 0xC0192D40) := rfl
theorem witness_EncodeOfDecodeOnTheLine : Wire.frame ≠ .cmd ∧
    decode ⟨.frame, 0xFFFFFFFF⟩ = .ok (.frameUnknownDataId 0xFFFFFFFF) := ⟨by decide, rfl⟩

/-- HOST presents `IS_READY`; two halves of one level arrive; nothing is to come. -/
theorem witness_StepRunsTheDecodedEvent :
    (let s := State.reset.withFetchWord 56 0x15000000000000
     s.nextEvent = some ⟨.host, 0⟩ ∧ decode (s.eventPacket .host) = .ok .isReady) ∧
    (let s := { State.reset with env := { State.reset.env with lineScript := [⟨7, .symbol 3⟩] } }
     s.nextEvent = some ⟨.line, 7⟩ ∧ decode (s.eventPacket .line) = .error .noSymbol) ∧
    State.reset.nextEvent = none := ⟨⟨by decide, rfl⟩, ⟨by decide, rfl⟩, by decide⟩
theorem witness_PlacedWordRunsNext : decodeTableWord 56 0x15000000000000 = some .isReady ∧
    decodeTableWord 0 0 = some .reset ∧ decodeTableWord 40 0x3FFFFFFFF = some (.txWord 0x3FFFFFFFF) ∧
    State.reset.cmdReady = true := by decide

/-- An edge and the engine's end at one time: the edge is next; the reset later. -/
def coincident : State :=
  { sending .request .sending 67 .idle 1033500 with
    env := { State.reset.env with
      clock := 1033500, rstScript := [1034001], lineScript := [⟨1034000, .edge .active⟩] } }
theorem witness_CoincidentEventsAreOrdered : coincident.nextEvent = some ⟨.line, 1034000⟩ ∧
    (⟨.engine, 1034000⟩ : Candidate) ∈ coincident.candidates ∧
    (⟨.rst, 1034001⟩ : Candidate) ∈ coincident.candidates := by decide
theorem witness_ClockNeverRunsBack : (nextOf (step coincident)).isSome = true := by decide
theorem witness_StepStopsOnlyOnReservedOrUndecodable :
    refusalOf (step (State.reset.withFetchWord 56 0x1F000000000000)) = some (.reservedCommand 0x1F) ∧
    refusalOf (step { State.reset with env := { State.reset.env with lineScript := [⟨7, .symbol 3⟩] } }) =
      some (.undecodable .noSymbol) := by decide
theorem witness_BusyPortAcceptsNothing : coincident.cmdReady = false ∧ (nextOf (step coincident)).isSome = true ∧
    isCodec (.parity 0) = true ∧ isController .tick = true ∧ coincident.sequencerEnabled = false ∧
    (polling .delay 1093500 1093500).cmdReady = false ∧
    (polling .delay 1093500 1093500).sequencerEnabled = false := by decide

theorem witness_ParityAnswersOddCount : State.reset.cmdReady = true := by decide
theorem witness_BuildersAssembleEvenFrames : State.reset.cmdReady = true := by decide
theorem witness_FieldReadersAnswerTheirBits : State.reset.cmdReady = true := by decide
theorem witness_SignedReadersAnswerTwosComplement : State.reset.cmdReady = true ∧ (0x7FFF : Nat) < 32768 ∧
    ¬ (0x8000 : Nat) < 32768 := by decide
theorem witness_TemperatureClampsAndTruncates : State.reset.cmdReady = true ∧ State.reset.params.tempIn = .fixed 16 ∧
    (0x80000000 : Word).toInt ≤ 0 ∧ (0 : Word).toInt = 0 ∧
    100 * 2 ^ 16 = (0x00640000 : Word).toInt ∧ 100 * 2 ^ 16 ≤ (0x7FFFFFFF : Word).toInt := by decide
theorem witness_ValidityIsByTypeOnly : State.reset.cmdReady = true := by decide
theorem witness_ModifyKeepsTypeSpareAndId : State.reset.cmdReady = true := by decide
theorem witness_BuiltFramesReadBack : State.reset.cmdReady = true := by decide
theorem witness_TemperatureRoundTripWithin256th : State.reset.cmdReady = true ∧
    State.reset.params.tempIn = .fixed 16 ∧ 0 ≤ (0 : Word).toInt ∧ (0x00640000 : Word).toInt = 6553600 := by decide
theorem witness_OneFlippedBitFailsParity : (0 : Nat) < 32 ∧ 31 < 32 ∧ (0 : Nat) ≠ 31 := by decide
theorem witness_CodecIsPure : isCodec (.modifyMsgData 0 0) = true ∧ State.reset.cmdReady = true ∧
    (channel .ready 0 1000000).cmdReady = true ∧ State.reset.params = (channel .ready 0 1000000).params := by decide
theorem witness_ReservedCodesAreRefused : reservedCodeOf .reservedCmd0E = some 0x0E ∧
    reservedCodeOf .reservedCmd1F = some 0x1F := by decide

theorem witness_InitializeStartsTheHold : State.reset.cmdReady = true := by decide
/-- The hold of an `INITIALIZE` accepted at 0, at its end. -/
def holdEnd : State :=
  { State.reset with
    tx := { State.reset.tx with busy := true, kind := .init }, env := { State.reset.env with clock := 1000000 } }
theorem witness_HoldEndsReady : holdEnd.tx.busy = true ∧ holdEnd.tx.kind = .init ∧
    holdEnd.env.clock % 2 ^ holdEnd.params.tsWidth = (holdEnd.tx.t0 + 1000000) % 2 ^ holdEnd.params.tsWidth := by decide
theorem witness_TickInReadyDoesNothing : (channel .ready 0 5000000).cmdReady = true ∧
    (channel .ready 0 5000000).cs.status = .ready := by decide
theorem witness_TickTimesOut : (channel .awaitingResponse 1034000 2034001).cmdReady = true ∧
    (channel .awaitingResponse 1034000 2034001).cs.status ≠ .ready ∧
    (channel .awaitingResponse 1034000 2034001).elapsed = 1000001 := by decide
theorem witness_TickReportsInvalidStart : (channel .responseInvalid 1050750 2050750).cmdReady = true ∧
    (channel .responseInvalid 1050750 2050750).cs.status = .responseInvalid ∧
    (channel .responseInvalid 1050750 2050750).elapsed = 1000000 := by decide
/-- Good parity and a response type, good parity and type 3, odd parity: the three classes. -/
theorem witness_classes : parity 0xC0192D40 = false ∧ validResponse 0xC0192D40 = true ∧ parity 0x30000000 = false ∧
    validResponse 0x30000000 = false ∧ parity 0x40192D40 = true := by decide
/-- At `el` = 1,000,000, for any frame. -/
theorem witness_TickClassifiesTheFrame (f : Frame) :
    (holding .responseReady 1093500 2093500 f 32).cmdReady = true ∧
    (holding .responseReady 1093500 2093500 f 32).cs.status = .responseReady ∧
    (holding .responseReady 1093500 2093500 f 32).elapsed ≤ 1000000 :=
  ⟨rfl, rfl, (by decide : (holding .responseReady 1093500 2093500 0 32).elapsed ≤ 1000000)⟩
theorem witness_TickEndsTheQuietPeriod : (channel .delay 1093500 1193500).cmdReady = true ∧
    (channel .delay 1093500 1193500).cs.status = .delay ∧ (channel .delay 1093500 1193500).elapsed = 100000 ∧
    (channel .delay 1093500 1193501).elapsed = 100001 ∧ (channel .delay 1093500 2093500).elapsed = 1000000 := by decide
theorem witness_TickElsewhereDoesNothing :
    ∀ st ∈ [Status.uninitialized, .sending, .awaitingResponse, .receivedStartBit, .receiving],
      (channel st 1034000 2034000).cmdReady = true ∧ (channel st 1034000 2034000).elapsed = 1000000 ∧
      (channel st 1034000 2034000).cs.status = st := by decide
/-- A tick that ends the `SEND_REQUEST` and one that does not. -/
theorem witness_SequencerTickIsATick :
    (polling .delay 1093500 1194000).sequencerEnabled = true ∧
    (statusOf (exec .tick { polling .delay 1093500 1194000 with sqActive := false })) = some .ready ∧
    (polling .responseReady 1093500 1094000).sequencerEnabled = true ∧
    (statusOf (exec .tick { polling .responseReady 1093500 1094000 with sqActive := false })) = some .delay := by decide

theorem witness_AcceptedRequestStartsSending : (channel .ready 0 1000000).cmdReady = true ∧
    (channel .ready 0 1000000).cs.status = .ready := by decide
theorem witness_RequestRejectedUnlessReady : (channel .delay 1093500 1100000).cmdReady = true ∧
    (channel .delay 1093500 1100000).cs.status ≠ .ready := by decide
theorem witness_ResponseSentFromAnyStatus : (slave .delay 1093500 1100000).cmdReady = true := by decide
theorem witness_QueriesAnswerTheRegisters : State.reset.cmdReady = true := by decide

/-- The first and the last `TX_STEP` of a transmission. -/
theorem witness_TxStepDrivesTheNextPhase :
    ∀ c ∈ [((0 : BitVec 7), Level.active, 1000500), (66, .active, 1033500)],
      let s := sending .request .sending c.1 c.2.1 c.2.2
      s.tx.busy = true ∧ s.tx.kind ≠ .init ∧ s.tx.phase.toNat < 67 ∧
      s.env.clock % 2 ^ s.params.tsWidth = (s.tx.t0 + 500 * (s.tx.phase.toNat + 1)) % 2 ^ s.params.tsWidth := by decide
/-- For `SEND_REQUEST_ASYNC` and for `SEND_REQUEST`. -/
theorem witness_RequestEndsAwaiting :
    ∀ b ∈ [false, true],
      let s := { sending .request .sending 67 .idle 1034000 with sqActive := b }
      s.tx.busy = true ∧ s.tx.kind = .request ∧ s.tx.phase.toNat = 67 ∧
      s.env.clock % 2 ^ s.params.tsWidth = (s.tx.t0 + 34000) % 2 ^ s.params.tsWidth := by decide
theorem witness_ResponseEndsReady :
    let s := sending .response .delay 67 .idle 1034000
    s.tx.busy = true ∧ s.tx.kind = .response ∧ s.tx.phase.toNat = 67 ∧
    s.env.clock % 2 ^ s.params.tsWidth = (s.tx.t0 + 34000) % 2 ^ s.params.tsWidth := by decide
theorem witness_TransmissionIsTheWaveform :
    let s := sending .request .sending 0 .active 1000000
    s.tx.busy = true ∧ s.tx.kind ≠ .init ∧ s.tx.phase = 0 ∧ isFramed s.tx.word = true ∧ s.lineOut = .active ∧
    s.tx.t0 = s.env.clock % 2 ^ s.params.tsWidth ∧ 500 < 2 ^ s.params.tsWidth ∧ s.params.coupled = false ∧
    s.undisturbed := by decide
theorem witness_NothingCancelsATransmission :
    (sending .request .sending 5 .active 1002700).tx.busy = true ∧
    (nextOf (exec (.edge .active) (sending .request .sending 5 .active 1002700))).isSome = true ∧
    Instr.edge .active ≠ .reset ∧ Instr.edge .active ≠ .txStep ∧ Instr.edge .active ≠ .txEnd ∧
    Instr.edge .active ≠ .initEnd := by decide

theorem witness_EdgeIgnoredElsewhere : State.reset.cs.edgeEnable = false ∧
    ∀ st ∈ [Status.uninitialized, .delay, .sending, .responseReady, .responseInvalid],
      (channel st 0 5).cs.status = st := by decide
theorem witness_EdgeInReadyStartsASlave : (slave .ready 0 2000000).cs.edgeEnable = true ∧
    (slave .ready 0 2000000).cs.status = .ready ∧ (slave .ready 0 2000000).cs.role = .slave ∧
    (channel .ready 0 2000000).cs.edgeEnable = true ∧ (channel .ready 0 2000000).cs.status = .ready ∧
    (channel .ready 0 2000000).cs.role = .master := by decide
theorem witness_FirstEdgeDecidesTheStart : (channel .awaitingResponse 1034000 1060000).cs.edgeEnable = true ∧
    (channel .awaitingResponse 1034000 1060000).cs.status = .awaitingResponse := by decide
theorem witness_StartBitConfirmedUnder750 :
    ∀ c ∈ [(1050749, 749), (1050750, 750)],
      let s := channel .receivedStartBit 1050000 c.1
      s.cs.edgeEnable = true ∧ s.cs.status = .receivedStartBit ∧ s.elapsed = c.2 := by decide
/-- The filter's edge, the first, the last data bit and the stop bit. -/
theorem witness_ReceivingSamplesAfter750 :
    ∀ c ∈ [(1061250, (0 : BitVec 6), 750), (1061251, 0, 751), (1061251, 31, 751), (1061251, 32, 751)],
      let s := holding .receiving 1060500 c.1 0x00000001 c.2.1
      s.cs.edgeEnable = true ∧ s.cs.status = .receiving ∧ s.cs.receivedBitCount.toNat ≤ 32 ∧ s.elapsed = c.2.2 := by
  decide
theorem witness_LineRowsBringTheirEdges : State.reset.env.lineIn = .idle ∧ State.reset.env.lineScript = [] := by decide
theorem witness_LineRowsLeaveTheBlockAlone : isLineFormat .symbolBit1 = true ∧ isLineFormat (.txWord 0) = true ∧
    isLineFormat (.frameReadData 0) = true := by decide
theorem witness_ReceptionReproducesTheFrame :
    (channel .awaitingResponse 1034000 1060000).cs.edgeEnable = true ∧
    (channel .awaitingResponse 1034000 1060000).cs.status = .awaitingResponse ∧
    (slave .ready 0 2000000).cs.edgeEnable = true ∧ (slave .ready 0 2000000).cs.status = .ready ∧
    (slave .ready 0 2000000).cs.role = .slave ∧ 1000 < 2 ^ (slave .ready 0 2000000).params.tsWidth := by decide

theorem witness_OnlyTickDelivers :
    doneOf (exec .tick (holding .responseReady 1093500 1094000 0xC0192D40 32)) = some ⟨0xC0192D40, .success⟩ ∧
    doneOf (exec .tick (channel .awaitingResponse 1034000 2034001)) = some ⟨0, .timeout⟩ := by decide
/-- An edge, the end of a request and a reset write the timestamp. -/
theorem witness_TimestampWrittenOnlyByEdgeAndTxEnd :
    (nextOf (exec (.edge .active) (channel .awaitingResponse 1034000 1060000))).map (fun t => t.cs.lastEdgeTimestamp) =
      some 1060000 ∧
    (nextOf (exec .txEnd (sending .request .sending 67 .idle 1034000))).map (fun t => t.cs.lastEdgeTimestamp) =
      some 1034000 ∧
    (nextOf (exec .reset (channel .ready 1034000 1060000))).map (fun t => t.cs.lastEdgeTimestamp) = some 0 := by decide
theorem witness_RoleAndParametersAreFixed :
    (nextOf (exec .reset (slave .ready 0 5))).map (fun t => t.cs.role) = some .master ∧
    (nextOf (exec .tick (slave .ready 0 5))).map (fun t => t.cs.role) = some .slave := by decide

theorem witness_channel_inv : (channel .awaitingResponse 1034000 2034001).Inv := by constructor <;> decide
theorem witness_StatusChangesAreTheGraph : (channel .awaitingResponse 1034000 2034001).Inv ∧
    statusOf (exec .tick (channel .awaitingResponse 1034000 2034001)) = some .ready := ⟨witness_channel_inv, by decide⟩
/-- An interval across the wrap of a 32-bit clock. -/
theorem witness_ElapsedIsTheModularDifference :
    let s := channel .receiving (2 ^ 32 - 300) (2 ^ 32 + 300)
    s.cs.lastEdgeTimestamp = (2 ^ 32 - 300) % 2 ^ s.params.tsWidth ∧ 2 ^ 32 - 300 ≤ s.env.clock ∧
    s.env.clock - (2 ^ 32 - 300) < 2 ^ s.params.tsWidth ∧ s.elapsed = 600 := by decide
theorem witness_sending_inv : (sending .request .sending 0 .active 1000000).Inv := by constructor <;> decide
theorem witness_InvariantKeptByEveryStep : (sending .request .sending 0 .active 1000000).Inv ∧
    (nextOf (step (sending .request .sending 0 .active 1000000))).isSome = true := ⟨witness_sending_inv, by decide⟩

end Sys2Proof.Tests
end

section
/-! Proofs of the scope statements (spec/00_scope.md): the step at its next event (R10), a placed table word (log 1),
true time along a step (R10), and elapsed time (R13, R240). -/

namespace Sys2Proof.Machine

/-! ## The step at its next event -/

theorem step_of_decoded {s : State} {c : Candidate} {i : Instr} (hn : s.nextEvent = some c)
    (hd : decode (s.eventPacket c.source) = .ok i) : step s = exec i (s.advance c) := by
  simp [step, hn, hd]

theorem step_of_undecodable {s : State} {c : Candidate} {e : DecodeError} (hn : s.nextEvent = some c)
    (hd : decode (s.eventPacket c.source) = .error e) : step s = .refused (.undecodable e) := by
  simp [step, hn, hd]

theorem step_of_no_event {s : State} (hn : s.nextEvent = none) : step s = .next s.openEvent := by
  simp [step, hn, State.idleMoment]

/-- Settles O6, one equation of the step for each thing its next event can be. -/
theorem stepRunsTheDecodedEvent : Obligations.StepRunsTheDecodedEvent := fun _ =>
  ⟨fun _ _ hn hd => step_of_decoded hn hd, fun _ _ hn hd => step_of_undecodable hn hd, step_of_no_event⟩

/-! ## Table words -/

/-- Only the wires that are driven from outside carry a table word (R82). -/
theorem tableWire_outside {nbits w : Nat} {k : Wire} (h : tableWire nbits w = some k) :
    k = .rst ∨ k = .edge ∨ k = .symbol ∨ k = .frame ∨ k = .txWord ∨ k = .cmd := by
  unfold tableWire at h
  split_ifs at h <;> cases h <;> simp

/-- What is placed and decoded from a table word is one packet, at a wire driven from outside. -/
theorem decodeTableWord_some {nbits w : Nat} {i : Instr} (h : decodeTableWord nbits w = some i) :
    ∃ p, tablePacket nbits w = some p ∧ decode p = .ok i ∧ tableWire nbits w = some p.wire := by
  unfold decodeTableWord at h
  split at h
  · cases h
  · next p hp =>
    refine ⟨p, hp, ?_, ?_⟩
    · cases hd : decode p <;> simp_all [Except.toOption]
    · unfold tablePacket at hp
      split at hp
      · obtain ⟨k, hk, rfl⟩ := Option.map_eq_some_iff.1 hp
        exact hk
      · cases hp

/-- A packet that decodes has no bit above its wire's width. -/
theorem fits_of_decode_ok {p : Packet} {i : Instr} (h : decode p = .ok i) : p.bits.toNat < 2 ^ p.wire.width := by
  by_contra hw
  rw [decode, if_pos (Nat.not_lt.1 hw)] at h
  cases h

/-- A packet from outside is a unit of the line, the reset pin or a command. -/
theorem lineUnitOf_cases {p : Packet}
    (h : p.wire = .rst ∨ p.wire = .edge ∨ p.wire = .symbol ∨ p.wire = .frame ∨ p.wire = .txWord ∨ p.wire = .cmd) :
    (∃ u, lineUnitOf p = some u) ∨ p.wire = .rst ∨ p.wire = .cmd := by
  rcases h with h | h | h | h | h | h <;> simp [lineUnitOf, h]

/-! ## The placed state -/

theorem placePacket_line {p : Packet} {u : LineUnit} (s : State) (h : lineUnitOf p = some u) :
    s.placePacket p =
      { s with env := { s.env.clearDue with lineScript := ⟨s.env.clock, u⟩ :: s.env.clearDue.lineScript } } := by
  simp [State.placePacket, h, Env.clearDue]

theorem placePacket_rst {p : Packet} (s : State) (h : p.wire = .rst) :
    s.placePacket p = { s with env := { s.env.clearDue with rstScript := s.env.clock :: s.env.clearDue.rstScript } } := by
  simp [State.placePacket, lineUnitOf, h, Env.clearDue]

theorem placePacket_cmd {p : Packet} (s : State) (h : p.wire = .cmd) :
    s.placePacket p =
      { s with
        tx := { s.tx with busy := false }
        sqActive := false
        env := { s.env.clearDue with hostScript := ⟨s.env.clock, p.bits⟩ :: s.env.hostScript } } := by
  simp [State.placePacket, lineUnitOf, h, Env.clearDue]

theorem clearDue_rstScript_later (e : Env) : ∀ t ∈ e.clearDue.rstScript, e.clock < t :=
  fun _ h => of_decide_eq_true (List.mem_filter.1 h).2

theorem clearDue_lineScript_later (e : Env) : ∀ a ∈ e.clearDue.lineScript, e.clock < a.time :=
  fun _ h => of_decide_eq_true (List.mem_filter.1 h).2

/-! ## Being next now -/

/-- A candidate of this moment is next, where those before it in the order of ties are later. -/
theorem nextEvent_of_candidates {s : State} {c : Candidate} {l1 l2 : List Candidate}
    (hl : s.candidates = l1 ++ c :: l2) (hc : c.time = s.env.clock) (h1 : ∀ d ∈ l1, s.env.clock < d.time) :
    s.nextEvent = some c := by
  have h2 : ∀ d ∈ l2, s.env.clock ≤ d.time := fun d hd => clock_le_candidate (by rw [hl]; simp [hd])
  rw [State.nextEvent, hl]
  exact earliest_mid (by rwa [hc]) (by rwa [hc])

/-- The reset pin's event of this moment is next, before all others (log 5). -/
theorem nextEvent_rst_now {s : State} (h : s.env.rstScript.head? = some s.env.clock) :
    s.nextEvent = some ⟨.rst, s.env.clock⟩ :=
  nextEvent_of_candidates (l1 := []) (by simp [State.candidates, h]; rfl) rfl (by simp)

/-- A line unit that arrives at this moment is next, with no reset due (R63, R211). -/
theorem nextEvent_line_now {s : State} {a : LineArrival} (ha : s.env.lineScript.head? = some a)
    (hat : a.time = s.env.clock) (hr : ∀ t ∈ s.env.rstScript, s.env.clock < t) :
    s.nextEvent = some ⟨.line, s.env.clock⟩ := by
  refine nextEvent_of_candidates (by simp [State.candidates, ha, hat]; rfl) rfl ?_
  intro d hd
  simp only [Option.mem_toList, Option.map_eq_some_iff] at hd
  obtain ⟨t, ht, rfl⟩ := hd
  exact lt_max_of_lt_right (hr t (List.mem_of_head? ht))

/-- A command presented at this moment at a ready port is next, with no reset and nothing on the line due (R63, R211). -/
theorem nextEvent_host_now {s : State} {k : HostCommand} (hk : s.env.hostScript.head? = some k)
    (hkt : k.time = s.env.clock) (hready : s.cmdReady = true) (hr : ∀ t ∈ s.env.rstScript, s.env.clock < t)
    (hl : ∀ a ∈ s.env.lineScript, s.env.clock < a.time) : s.nextEvent = some ⟨.host, s.env.clock⟩ := by
  obtain ⟨hb, hq⟩ := (cmdReady_iff s).1 hready
  refine nextEvent_of_candidates (l2 := [])
    (by simp [State.candidates, Engine.nextWire, hk, hkt, hready, hb, hq, -List.append_assoc]; rfl) rfl ?_
  intro d hd
  simp only [List.mem_append, Option.mem_toList, Option.map_eq_some_iff] at hd
  rcases hd with ⟨t, ht, rfl⟩ | ⟨a, ha, rfl⟩
  · exact lt_max_of_lt_right (hr t (List.mem_of_head? ht))
  · exact lt_max_of_lt_right (hl a (List.mem_of_head? ha))

/-! ## A placed word -/

/-- What placing a word and taking it leaves of `s` in `u`: all that an instruction reads but the scripts of the line and
the reset pin, and the engine where the port was not ready. -/
structure State.KeptAtPlacing (s u : State) : Prop where
  cs         : u.cs = s.cs
  lineOut    : u.lineOut = s.lineOut
  out        : u.out = s.out
  poll       : u.poll = s.poll
  params     : u.params = s.params
  clock      : u.env.clock = s.env.clock
  lineIn     : u.env.lineIn = s.env.lineIn
  hostScript : u.env.hostScript = s.env.hostScript
  engine     : s.cmdReady = true → u.tx = s.tx ∧ u.sqActive = s.sqActive

theorem step_placePacket_line {s : State} {p : Packet} {i : Instr} {v : LineUnit} (hv : lineUnitOf p = some v)
    (hd : decode p = .ok i) : ∃ u, step (s.placePacket p) = exec i u ∧ s.KeptAtPlacing u := by
  have hp : v.packet = p := packet_of_lineUnitOf hv (fits_of_decode_ok hd)
  rw [placePacket_line s hv]
  refine ⟨_, step_of_decoded (nextEvent_line_now rfl rfl (clearDue_rstScript_later s.env)) ?_, ?_⟩
  · simpa [State.eventPacket, hp] using hd
  · exact ⟨rfl, rfl, rfl, rfl, rfl, rfl, rfl, rfl, fun _ => ⟨rfl, rfl⟩⟩

theorem step_placePacket_rst {s : State} {p : Packet} {i : Instr} (hw : p.wire = .rst) (hd : decode p = .ok i) :
    ∃ u, step (s.placePacket p) = exec i u ∧ s.KeptAtPlacing u := by
  have hi : i = .reset := by
    rw [decode_fits (fits_of_decode_ok hd), hw] at hd
    cases hd; rfl
  rw [placePacket_rst s hw]
  refine ⟨_, step_of_decoded (nextEvent_rst_now rfl) ?_, ?_⟩
  · rw [hi]; rfl
  · exact ⟨rfl, rfl, rfl, rfl, rfl, rfl, rfl, rfl, fun _ => ⟨rfl, rfl⟩⟩

theorem step_placePacket_cmd {s : State} {p : Packet} {i : Instr} (hw : p.wire = .cmd) (hd : decode p = .ok i) :
    ∃ u, step (s.placePacket p) = exec i u ∧ s.KeptAtPlacing u := by
  rw [placePacket_cmd s hw]
  refine ⟨_, step_of_decoded (nextEvent_host_now rfl rfl rfl (clearDue_rstScript_later s.env)
    (clearDue_lineScript_later s.env)) ?_, ?_⟩
  · obtain ⟨w, b⟩ := p
    cases hw
    exact hd
  · refine ⟨rfl, rfl, rfl, rfl, rfl, rfl, rfl, rfl, fun hready => ?_⟩
    obtain ⟨hb, hq⟩ := (cmdReady_iff s).1 hready
    have hfree : { s.tx with busy := false } = s.tx := by rw [← hb]
    exact ⟨hfree, hq.symm⟩

/-- Settles O7, by where the word is placed: on the line, on the reset pin, at the command port. -/
theorem placedWordRunsNext : Obligations.PlacedWordRunsNext := by
  intro s nbits w i h
  obtain ⟨p, hp, hd, hwire⟩ := decodeTableWord_some h
  have hplace : s.withFetchWord nbits w = s.placePacket p := by simp [State.withFetchWord, State.placeWord, hp]
  have key : ∃ u, step (s.placePacket p) = exec i u ∧ s.KeptAtPlacing u := by
    rcases lineUnitOf_cases (tableWire_outside hwire) with ⟨v, hv⟩ | hw | hw
    · exact step_placePacket_line hv hd
    · exact step_placePacket_rst hw hd
    · exact step_placePacket_cmd hw hd
  obtain ⟨u, hs, k⟩ := key
  rw [hplace]
  exact ⟨u, hs, k.cs, k.lineOut, k.out, k.poll, k.params, k.clock, k.lineIn, k.hostScript, k.engine⟩

/-! ## What an instruction does, by family -/

/-- A codec command answers a value (R100). -/
theorem exec_codec {i : Instr} (h : isCodec i = true) (s : State) : ∃ v, exec i s = s.answer v := by
  cases i <;> first
    | exact absurd h Bool.false_ne_true
    | exact ⟨_, rfl⟩

/-- A reserved command code is refused (R85). -/
theorem exec_reserved {i : Instr} {k : BitVec 5} (h : reservedCodeOf i = some k) (s : State) :
    exec i s = .refused (.reservedCommand k) := by
  cases i <;> cases h <;> rfl

/-- The events that are not commands and have no code on the command port (R82). -/
def isSignal : Instr → Bool
  | .edge _ | .reset | .txStep | .txEnd | .initBegin | .initEnd => true
  | _ => false

/-- Every row of the opcode table is of one of five families. -/
theorem instr_family (i : Instr) :
    isCodec i = true ∨ isController i = true ∨ (∃ k, reservedCodeOf i = some k) ∨ isLineFormat i = true ∨
    isSignal i = true := by
  cases i <;> first
    | exact .inl rfl
    | exact .inr (.inl rfl)
    | exact .inr (.inr (.inl ⟨_, rfl⟩))
    | exact .inr (.inr (.inr (.inl rfl)))
    | exact .inr (.inr (.inr (.inr rfl)))

/-! ## True time -/

@[simp] theorem State.tickEffect_env (s : State) : s.tickEffect.env = s.env := (tickEffect_frame s).2.2.2.2.1

@[simp] theorem State.receive_env (l : Level) (s : State) : (s.receive l).env = s.env :=
  (receive_frame l s).2.2.2.2.2.1

@[simp] theorem State.endSequence_env (s : State) : s.endSequence.env = s.env := by
  unfold State.endSequence; split <;> rfl

@[simp] theorem State.endRequest_env (s : State) : s.endRequest.env = s.env := by
  unfold State.endRequest; dsimp only; split <;> rfl

@[simp] theorem State.beginRequest_clock (f : Frame) (s : State) : (s.beginRequest f).env.clock = s.env.clock := by
  simp [State.beginRequest]

theorem accept_clock {s t : State} {run : State → State} (h : s.accept run = .next t)
    (hrun : ∀ v, (run v).env.clock = v.env.clock) : t.env.clock = s.env.clock := by
  obtain ⟨-, rfl⟩ := accept_next h
  simp [hrun]

theorem whenEnabled_clock {s t : State} {b : Bool} {run : State → State} (h : s.whenEnabled b run = .next t)
    (hrun : ∀ v, (run v).env.clock = v.env.clock) : t.env.clock = s.env.clock := by
  obtain ⟨-, rfl⟩ := whenEnabled_next h
  simp [hrun]

theorem answer_clock {s t : State} {v : Word} (h : s.answer v = .next t) : t.env.clock = s.env.clock :=
  accept_clock h fun _ => rfl

theorem execTick_clock {s t : State} (h : execTick s = .next t) : t.env.clock = s.env.clock := by
  rcases execTick_next h with ⟨-, rfl⟩ | ⟨-, -, rfl⟩ <;> simp

theorem execSendRequestAsync_clock {f : Frame} {s t : State} (h : execSendRequestAsync f s = .next t) :
    t.env.clock = s.env.clock :=
  accept_clock h fun v => by split <;> simp

theorem execSendRequest_clock {f : Frame} {s t : State} (h : execSendRequest f s = .next t) :
    t.env.clock = s.env.clock :=
  accept_clock h fun v => by split <;> simp

theorem execInitEnd_clock {s t : State} (h : execInitEnd s = .next t) : t.env.clock = s.env.clock :=
  whenEnabled_clock h fun _ => rfl

theorem execTxEnd_clock {s t : State} (h : execTxEnd s = .next t) : t.env.clock = s.env.clock :=
  whenEnabled_clock h fun v => by dsimp only; split <;> simp

theorem exec_controller_clock {i : Instr} {s t : State} (hi : isController i = true) (h : exec i s = .next t) :
    t.env.clock = s.env.clock := by
  cases i with
  | initChannel => exact accept_clock h State.initHold_clock
  | tick => exact execTick_clock h
  | sendRequestAsync f => exact execSendRequestAsync_clock h
  | sendRequest f => exact execSendRequest_clock h
  | sendResponse f => exact accept_clock h (State.txBegin_clock f .response)
  | isReady => exact answer_clock h
  | getLastResponseStatus => exact answer_clock h
  | _ => exact absurd hi Bool.false_ne_true

theorem exec_signal_clock {i : Instr} {s t : State} (hi : isSignal i = true) (h : exec i s = .next t) :
    t.env.clock = s.env.clock := by
  cases i with
  | edge l => cases h; simp
  | reset => cases h; simp
  | txStep => exact whenEnabled_clock h State.nextPhase_clock
  | txEnd => exact execTxEnd_clock h
  | initBegin => exact accept_clock h State.initHold_clock
  | initEnd => exact execInitEnd_clock h
  | _ => exact absurd hi Bool.false_ne_true

/-- An instruction happens at one moment: it does not move true time (R10). -/
theorem exec_clock {i : Instr} {s t : State} (h : exec i s = .next t) : t.env.clock = s.env.clock := by
  rcases instr_family i with hi | hi | ⟨k, hi⟩ | hi | hi
  · obtain ⟨v, hv⟩ := exec_codec hi s
    exact answer_clock (hv ▸ h)
  · exact exec_controller_clock hi h
  · rw [exec_reserved hi] at h
    cases h
  · obtain ⟨levels, hl⟩ := exec_lineFormat hi
    rw [hl s] at h
    cases h; simp
  · exact exec_signal_clock hi h

/-- Settles O9: the next event is not before the clock, and performing it takes no time. -/
theorem clockNeverRunsBack : Obligations.ClockNeverRunsBack := by
  intro s t h
  rcases step_next h with ⟨-, rfl⟩ | ⟨c, i, hn, -, he⟩
  · exact Nat.le_refl _
  · calc s.env.clock ≤ c.time := clock_le_nextEvent hn
      _ = (s.advance c).env.clock := (State.advance_clock c s).symm
      _ = t.env.clock := (exec_clock he).symm

/-! ## Elapsed time -/

/-- Elapsed time as the modular difference over the integers (R13). -/
theorem elapsed_eq_emod (s : State) :
    (s.elapsed : Int) = ((s.env.clock : Int) - s.cs.lastEdgeTimestamp) % s.period := by
  have hle : s.cs.lastEdgeTimestamp % s.period ≤ s.period := (Nat.mod_lt _ s.period_pos).le
  rw [State.elapsed, State.now]
  push_cast [Nat.cast_sub hle]
  rw [← add_sub_assoc, add_sub_right_comm, Int.add_emod_right, ← Int.sub_emod]

/-- Settles O58, from the modular difference and from the elapsed time `d` after the last recorded edge. -/
theorem elapsedIsTheModularDifference : Obligations.ElapsedIsTheModularDifference := by
  intro s
  refine ⟨?_, fun t ht hle hlt => elapsed_after ht (by omega) hlt⟩
  simpa [State.period] using elapsed_eq_emod s

end Sys2Proof.Machine
end

section
/-! Proofs of the state statements (spec/10_state.md): what an instruction that completes can have done, the writers of
the timestamp (R23), the fixed role and parameters (R8, R25), and the invariant of the registers (R21, R24, R28, R29). -/

namespace Sys2Proof.Machine

/-! ## What an instruction that completes has done -/

/-- What an instruction that completes has done to the state: one constructor for each kind of event, with the condition
under which it happens. -/
inductive Performs (s : State) : Instr → State → Prop where
  | answer {i : Instr} (v : Word) (hi : isCodec i = true ∨ isController i = true) (hready : s.cmdReady = true) :
      Performs s i (s.openEvent.withRes v)
  | arrive {i : Instr} (levels : List Level) (hi : isLineFormat i = true) :
      Performs s i (s.openEvent.arriveWave levels)
  | hold {i : Instr} (hi : i = .initChannel ∨ i = .initBegin) (hready : s.cmdReady = true) :
      Performs s i s.openEvent.initHold
  | requestAsync (f : Frame) (hready : s.cmdReady = true) (hstatus : s.cs.status = .ready) :
      Performs s (.sendRequestAsync f) (s.openEvent.beginRequest f)
  | request (f : Frame) (hready : s.cmdReady = true) (hstatus : s.cs.status = .ready) :
      Performs s (.sendRequest f) { s.openEvent.beginRequest f with sqActive := true }
  | response (f : Frame) (hready : s.cmdReady = true) :
      Performs s (.sendResponse f) (s.openEvent.txBegin f .response)
  | tick (hready : s.cmdReady = true) :
      Performs s .tick (s.openEvent.tickEffect.withRes 0)
  | sequencerTick (henabled : s.sequencerEnabled = true) :
      Performs s .tick s.openEvent.tickEffect.pollNext.endSequence
  | edge (l : Level) : Performs s (.edge l) ((s.openEvent.setLineIn l).receive l)
  | reset : Performs s .reset s.toReset
  | phase (henabled : s.txStepEnabled = true) : Performs s .txStep s.openEvent.nextPhase
  | requestEnd (henabled : s.txEndEnabled = true) (hkind : s.tx.kind = .request) :
      Performs s .txEnd (s.openEvent.lineWrite .idle).freeEngine.endRequest
  | responseEnd (henabled : s.txEndEnabled = true) (hkind : s.tx.kind = .response) :
      Performs s .txEnd (((s.openEvent.lineWrite .idle).freeEngine.setStatus .ready).withRes 1)
  | holdEnd (henabled : s.initEndEnabled = true) :
      Performs s .initEnd (State.withRes 0 { s.openEvent.freeEngine with
        cs := { s.cs with status := .ready, edgeEnable := true } })

theorem txStepEnabled_iff (s : State) : s.txStepEnabled = true ↔
    s.tx.busy = true ∧ s.tx.kind ≠ .init ∧ s.tx.phase.toNat < 67 ∧ s.engineDue = true := by
  simp [State.txStepEnabled, and_assoc]

theorem txEndEnabled_iff (s : State) : s.txEndEnabled = true ↔
    s.tx.busy = true ∧ s.tx.kind ≠ .init ∧ s.tx.phase.toNat = 67 ∧ s.engineDue = true := by
  simp [State.txEndEnabled, and_assoc]

theorem initEndEnabled_iff (s : State) : s.initEndEnabled = true ↔
    s.tx.busy = true ∧ s.tx.kind = .init ∧ s.engineDue = true := by
  simp [State.initEndEnabled, and_assoc]

theorem sequencerEnabled_iff (s : State) : s.sequencerEnabled = true ↔
    s.sqActive = true ∧ s.tx.busy = false ∧ s.poll.after < s.env.clock := by
  simp [State.sequencerEnabled, and_assoc]

theorem answer_performs {i : Instr} {s t : State} {v : Word} (hi : isCodec i = true ∨ isController i = true)
    (h : s.answer v = .next t) : Performs s i t := by
  obtain ⟨hready, rfl⟩ := accept_next h
  exact .answer v hi hready

theorem initHold_performs {i : Instr} {s t : State} (hi : i = .initChannel ∨ i = .initBegin)
    (h : s.accept State.initHold = .next t) : Performs s i t := by
  obtain ⟨hready, rfl⟩ := accept_next h
  exact .hold hi hready

/-- A tick is the command's or the sequencer's (R181 step 4). -/
theorem execTick_performs {s t : State} (h : execTick s = .next t) : Performs s .tick t := by
  rcases execTick_next h with ⟨he, rfl⟩ | ⟨-, hready, rfl⟩
  · exact .sequencerTick he
  · exact .tick hready

/-- A request is accepted in `READY` and rejected elsewhere (R180, R207). -/
theorem execSendRequestAsync_performs {f : Frame} {s t : State} (h : execSendRequestAsync f s = .next t) :
    Performs s (.sendRequestAsync f) t := by
  obtain ⟨hready, rfl⟩ := accept_next h
  split
  · next hst => exact .requestAsync f hready hst
  · exact .answer 0 (.inr rfl) hready

theorem execSendRequest_performs {f : Frame} {s t : State} (h : execSendRequest f s = .next t) :
    Performs s (.sendRequest f) t := by
  obtain ⟨hready, rfl⟩ := accept_next h
  split
  · next hst => exact .request f hready hst
  · exact .answer 0 (.inr rfl) hready

/-- A transmission that ends is a request's or a response's; the hold has no `TX_END` (R135, R137). -/
theorem execTxEnd_performs {s t : State} (h : execTxEnd s = .next t) : Performs s .txEnd t := by
  obtain ⟨he, rfl⟩ := whenEnabled_next h
  obtain ⟨-, hinit, -, -⟩ := (txEndEnabled_iff s).1 he
  dsimp only
  split
  · next hk => exact .requestEnd he hk
  · next hk => exact .responseEnd he hk
  · next hk => exact absurd hk hinit

theorem execInitEnd_performs {s t : State} (h : execInitEnd s = .next t) : Performs s .initEnd t := by
  obtain ⟨he, rfl⟩ := whenEnabled_next h
  exact .holdEnd he

theorem exec_controller_performs {i : Instr} {s t : State} (hi : isController i = true) (h : exec i s = .next t) :
    Performs s i t := by
  cases i with
  | initChannel => exact initHold_performs (.inl rfl) h
  | tick => exact execTick_performs h
  | sendRequestAsync f => exact execSendRequestAsync_performs h
  | sendRequest f => exact execSendRequest_performs h
  | sendResponse f =>
    obtain ⟨hready, rfl⟩ := accept_next h
    exact .response f hready
  | isReady => exact answer_performs (.inr rfl) h
  | getLastResponseStatus => exact answer_performs (.inr rfl) h
  | _ => exact absurd hi Bool.false_ne_true

theorem exec_signal_performs {i : Instr} {s t : State} (hi : isSignal i = true) (h : exec i s = .next t) :
    Performs s i t := by
  cases i with
  | edge l => cases h; exact .edge l
  | reset => cases h; exact .reset
  | txStep =>
    obtain ⟨he, rfl⟩ := whenEnabled_next h
    exact .phase he
  | txEnd => exact execTxEnd_performs h
  | initBegin => exact initHold_performs (.inr rfl) h
  | initEnd => exact execInitEnd_performs h
  | _ => exact absurd hi Bool.false_ne_true

/-- Everything an instruction that completes can have done. -/
theorem exec_performs {i : Instr} {s t : State} (h : exec i s = .next t) : Performs s i t := by
  rcases instr_family i with hi | hi | ⟨k, hi⟩ | hi | hi
  · obtain ⟨v, hv⟩ := exec_codec hi s
    exact answer_performs (.inl hi) (hv ▸ h)
  · exact exec_controller_performs hi h
  · rw [exec_reserved hi] at h
    cases h
  · obtain ⟨levels, hl⟩ := exec_lineFormat hi
    rw [hl s] at h
    cases h
    exact .arrive levels hi
  · exact exec_signal_performs hi h

/-! ## The fields that the composed operations write and leave alone -/

@[simp] theorem State.beginRequest_cs (f : Frame) (s : State) :
    (s.beginRequest f).cs = { s.cs with status := .sending, pendingFrame := 0, lastResponseStatus := .none } := by
  simp [State.beginRequest]
@[simp] theorem State.beginRequest_tx (f : Frame) (s : State) :
    (s.beginRequest f).tx = { busy := true, kind := .request, word := frameWord f, phase := 0, t0 := s.now } := by
  simp [State.beginRequest, State.now, State.period]
@[simp] theorem State.beginRequest_lineOut (f : Frame) (s : State) :
    (s.beginRequest f).lineOut = txLevel (frameWord f) 0 := by
  simp [State.beginRequest]
@[simp] theorem State.beginRequest_params (f : Frame) (s : State) : (s.beginRequest f).params = s.params := by
  simp [State.beginRequest]

@[simp] theorem State.endRequest_cs (s : State) :
    s.endRequest.cs = { s.cs with status := .awaitingResponse, lastEdgeTimestamp := s.now } := by
  unfold State.endRequest; dsimp only; split <;> simp
@[simp] theorem State.endRequest_tx (s : State) : s.endRequest.tx = s.tx := by
  unfold State.endRequest; dsimp only; split <;> simp
@[simp] theorem State.endRequest_lineOut (s : State) : s.endRequest.lineOut = s.lineOut := by
  unfold State.endRequest; dsimp only; split <;> simp
@[simp] theorem State.endRequest_params (s : State) : s.endRequest.params = s.params := by
  unfold State.endRequest; dsimp only; split <;> simp

@[simp] theorem State.endSequence_cs (s : State) : s.endSequence.cs = s.cs := by
  unfold State.endSequence; split <;> simp
@[simp] theorem State.endSequence_tx (s : State) : s.endSequence.tx = s.tx := by
  unfold State.endSequence; split <;> simp
@[simp] theorem State.endSequence_lineOut (s : State) : s.endSequence.lineOut = s.lineOut := by
  unfold State.endSequence; split <;> simp
@[simp] theorem State.endSequence_params (s : State) : s.endSequence.params = s.params := by
  unfold State.endSequence; split <;> simp

/-- The sequence ends in `READY` and goes on elsewhere (R181 step 4). -/
theorem State.endSequence_sqActive (s : State) :
    s.endSequence.sqActive = true ↔ s.sqActive = true ∧ s.cs.status ≠ .ready := by
  unfold State.endSequence; split <;> simp_all

@[simp] theorem State.txBegin_roleStrap (f : Frame) (k : TxKind) (s : State) :
    (s.txBegin f k).env.roleStrap = s.env.roleStrap := by
  simp [State.txBegin]
@[simp] theorem State.beginRequest_roleStrap (f : Frame) (s : State) :
    (s.beginRequest f).env.roleStrap = s.env.roleStrap := by
  simp [State.beginRequest]
@[simp] theorem State.initHold_roleStrap (s : State) : s.initHold.env.roleStrap = s.env.roleStrap := by
  simp [State.initHold]
@[simp] theorem State.nextPhase_roleStrap (s : State) : s.nextPhase.env.roleStrap = s.env.roleStrap := by
  simp [State.nextPhase]
@[simp] theorem State.toReset_roleStrap (s : State) : s.toReset.env.roleStrap = s.env.roleStrap := by
  simp [State.toReset]

@[simp] theorem State.tickEffect_params (s : State) : s.tickEffect.params = s.params := by
  simp [tickEffect_frame]
@[simp] theorem State.tickEffect_tx (s : State) : s.tickEffect.tx = s.tx := by
  simp [tickEffect_frame]
@[simp] theorem State.tickEffect_lineOut (s : State) : s.tickEffect.lineOut = s.lineOut := by
  simp [tickEffect_frame]
@[simp] theorem State.tickEffect_sqActive (s : State) : s.tickEffect.sqActive = s.sqActive := by
  simp [tickEffect_frame]
@[simp] theorem State.tickEffect_role (s : State) : s.tickEffect.cs.role = s.cs.role := by
  simp [tickEffect_frame]
@[simp] theorem State.tickEffect_lastEdgeTimestamp (s : State) :
    s.tickEffect.cs.lastEdgeTimestamp = s.cs.lastEdgeTimestamp := by
  simp [tickEffect_frame]
@[simp] theorem State.tickEffect_receivedBitCount (s : State) :
    s.tickEffect.cs.receivedBitCount = s.cs.receivedBitCount := by
  simp [tickEffect_frame]
@[simp] theorem State.tickEffect_edgeEnable (s : State) : s.tickEffect.cs.edgeEnable = s.cs.edgeEnable := by
  simp [tickEffect_frame]

@[simp] theorem State.receive_tx (l : Level) (s : State) : (s.receive l).tx = s.tx := by
  simp [receive_frame]
@[simp] theorem State.receive_lineOut (l : Level) (s : State) : (s.receive l).lineOut = s.lineOut := by
  simp [receive_frame]
@[simp] theorem State.receive_sqActive (l : Level) (s : State) : (s.receive l).sqActive = s.sqActive := by
  simp [receive_frame]
@[simp] theorem State.receive_params (l : Level) (s : State) : (s.receive l).params = s.params := by
  simp [receive_frame]
@[simp] theorem State.receive_role (l : Level) (s : State) : (s.receive l).cs.role = s.cs.role := by
  simp [receive_frame]
@[simp] theorem State.receive_edgeEnable (l : Level) (s : State) : (s.receive l).cs.edgeEnable = s.cs.edgeEnable := by
  simp [receive_frame]

/-- An edge leaves the timestamp or writes the time of the edge (R154, R155, R157, R158). -/
theorem receive_lastEdgeTimestamp (l : Level) (s : State) :
    (s.receive l).cs.lastEdgeTimestamp = s.cs.lastEdgeTimestamp ∨ (s.receive l).cs.lastEdgeTimestamp = s.now := by
  rcases receive_cases l s with h | ⟨-, -, -, h⟩ | ⟨-, -, -, h⟩ | ⟨-, -, -, -, h⟩ | ⟨-, -, -, h⟩ | ⟨-, -, -, -, h⟩ |
    ⟨-, -, -, -, h⟩ <;> rw [h] <;> simp

/-! ## The writers of the timestamp, the role and the parameters -/

/-- Settles O55, by what the instruction has done: the operations of the other events leave the timestamp alone. -/
theorem timestampWrittenOnlyByEdgeAndTxEnd : Obligations.TimestampWrittenOnlyByEdgeAndTxEnd := by
  intro i s t h hne
  cases exec_performs h with
  | reset => exact .inl rfl
  | edge l =>
    have hnow := (receive_lastEdgeTimestamp l (s.openEvent.setLineIn l)).resolve_left hne
    exact .inr ⟨hnow, .inl ⟨l, rfl⟩⟩
  | requestEnd _ hkind => exact .inr ⟨by simp [State.now, State.period], .inr ⟨rfl, hkind⟩⟩
  | _ => exact absurd (by simp) hne

theorem ne_reset_of_family {i : Instr} (hi : (isCodec i = true ∨ isController i = true) ∨ isLineFormat i = true) :
    i ≠ .reset := by
  rintro rfl
  rcases hi with (hi | hi) | hi <;> exact absurd hi Bool.false_ne_true

/-- Settles O56, by what the instruction has done: `RESET` samples the strap, the other operations leave the role, the
strap and the parameters alone. -/
theorem roleAndParametersAreFixed : Obligations.RoleAndParametersAreFixed := by
  intro i s t h
  cases exec_performs h with
  | answer _ hi => simp [ne_reset_of_family (.inl hi)]
  | arrive _ hi => simp [ne_reset_of_family (.inr hi)]
  | hold hi => rcases hi with rfl | rfl <;> simp
  | reset => simp [Channel.reset]
  | _ => simp

/-! ## The state after reset -/

/-- Settles O27. -/
theorem resetStateIsAsTheTable : Obligations.ResetStateIsAsTheTable := by
  unfold Obligations.ResetStateIsAsTheTable
  decide

/-! ## The invariant of the registers -/

theorem State.period_congr {s t : State} (h : t.params = s.params) : t.period = s.period := by
  rw [State.period, h, State.period]

/-- The registers that the invariant speaks of are the same in `s` and `t`. -/
structure State.SameRegisters (s t : State) : Prop where
  cs       : t.cs = s.cs
  tx       : t.tx = s.tx
  lineOut  : t.lineOut = s.lineOut
  sqActive : t.sqActive = s.sqActive
  params   : t.params = s.params

/-- The strobes, the environment and the poll times are not in the invariant. -/
theorem State.Inv.of_sameRegisters {s t : State} (hs : s.Inv) (h : s.SameRegisters t) : t.Inv := by
  obtain ⟨cs, tx, lineOut, sqActive, out, poll, env, params⟩ := t
  obtain ⟨rfl, rfl, rfl, rfl, rfl⟩ := h
  obtain ⟨htimes, hcounters, hline, hsending, hseq, hrec⟩ := hs
  exact ⟨htimes, hcounters, hline, hsending, hseq, hrec⟩

theorem State.Inv.openEvent {s : State} (hs : s.Inv) : s.openEvent.Inv :=
  hs.of_sameRegisters ⟨rfl, rfl, rfl, rfl, rfl⟩

theorem State.Inv.advance {s : State} (hs : s.Inv) (c : Candidate) : (s.advance c).Inv :=
  hs.of_sameRegisters ⟨by simp, by simp, by simp, by simp, by simp⟩

/-- An engine at work on something else than a request is not the sequencer's (R181). -/
theorem State.Inv.sqActive_of_kind {s : State} (hs : s.Inv) (hb : s.tx.busy = true) (hk : s.tx.kind ≠ .request) :
    s.sqActive = false := by
  by_contra hq
  have := hs.sequencerOpen (by simpa using hq)
  simp [hb, hk] at this

/-- With the edge input enabled every status but `UNINITIALIZED` is possible (R28). -/
theorem receptionEnabled_of_enabled {s : State} (he : s.cs.edgeEnable = true) (h : s.cs.status ≠ .uninitialized) :
    s.receptionEnabled :=
  ⟨fun hf => by simp [he] at hf, fun _ => h⟩

/-- A reception that has begun has the edge input enabled (R28, R152). -/
theorem State.Inv.edgeEnable_of_response {s : State} (hs : s.Inv)
    (h : s.cs.status = .responseReady ∨ s.cs.status = .responseInvalid ∨ s.cs.status = .delay) :
    s.cs.edgeEnable = true := by
  by_contra he
  obtain ⟨-, -, hready, hinvalid, hdelay⟩ := hs.receptionEnabled.1 (by simpa using he)
  rcases h with h | h | h <;> contradiction

/-! ### Ticks and edges -/

/-- What a tick or an edge does from a state in which no request is being transmitted: the status moves, the engine and
the line stay, and a sequence goes on only while the status is not `READY`. -/
structure State.StatusMove (s t : State) : Prop where
  tx        : t.tx = s.tx
  lineOut   : t.lineOut = s.lineOut
  params    : t.params = s.params
  sqActive  : t.sqActive = true → s.sqActive = true ∧ t.cs.status ≠ .ready
  timestamp : t.cs.lastEdgeTimestamp < s.period
  bitCount  : t.cs.receivedBitCount.toNat ≤ 32
  from_ne   : s.cs.status ≠ .sending
  to_ne     : t.cs.status ≠ .sending
  reception : t.receptionEnabled

theorem State.Inv.of_statusMove {s t : State} (hs : s.Inv) (h : s.StatusMove t) : t.Inv := by
  have hperiod := State.period_congr h.params
  obtain ⟨hwidth, -, ht0⟩ := hs.timesFit
  have hnot : ¬(s.tx.busy = true ∧ s.tx.kind = .request) := fun hreq => h.from_ne (hs.sendingIffRequest.2 hreq)
  refine ⟨⟨?_, ?_, ?_⟩, ⟨h.bitCount, ?_⟩, ?_, ?_, fun hq => .inr ?_, h.reception⟩
  · rwa [h.params]
  · rw [hperiod]; exact h.timestamp
  · rwa [h.tx, hperiod]
  · rw [h.tx]; exact hs.countersFit.2
  · simpa [State.lineDriven, h.tx, h.lineOut] using hs.lineDriven
  · simpa [State.sendingIffRequest, h.tx, h.to_ne] using hnot
  · obtain ⟨hsq, hready⟩ := h.sqActive hq
    obtain ⟨hfree, -⟩ := (hs.sequencerOpen hsq).resolve_left hnot
    exact ⟨by rw [h.tx, hfree], hready⟩

/-- Where a tick leaves the status (R172): as it was, `READY`, or `DELAY` after a response. -/
theorem tickEffect_status (s : State) :
    s.tickEffect.cs.status = s.cs.status ∨ s.tickEffect.cs.status = .ready ∨
    ((s.cs.status = .responseReady ∨ s.cs.status = .responseInvalid) ∧ s.tickEffect.cs.status = .delay) := by
  rcases tickEffect_cases s with h | ⟨-, -, h⟩ | ⟨hst, -, h⟩ | ⟨hst, -, h⟩ | ⟨-, -, -, h⟩ <;> rw [h]
  · exact .inl rfl
  · exact .inr (.inl rfl)
  · exact .inr (.inr ⟨.inr hst, rfl⟩)
  · refine .inr (.inr ⟨.inl hst, ?_⟩)
    simp [(classify_ne _ _ _).1]
  · exact .inr (.inl rfl)

/-- A tick keeps the reception behind the enabled edge input (R28). -/
theorem State.Inv.tickEffect_receptionEnabled {s : State} (hs : s.Inv) : s.tickEffect.receptionEnabled := by
  rcases tickEffect_status s with h | h | ⟨hst, h⟩
  · simpa [State.receptionEnabled, h] using hs.receptionEnabled
  · simp [State.receptionEnabled, h]
  · refine receptionEnabled_of_enabled ?_ (by simp [h])
    rw [State.tickEffect_edgeEnable]
    exact hs.edgeEnable_of_response (by tauto)

/-- A tick with the engine free, whether HOST's or the sequencer's. -/
theorem State.Inv.tick {s t : State} (hs : s.Inv) (hfree : s.tx.busy = false) (hcs : t.cs = s.tickEffect.cs)
    (htx : t.tx = s.tx) (hline : t.lineOut = s.lineOut) (hparams : t.params = s.params)
    (hsq : t.sqActive = true → s.sqActive = true ∧ t.cs.status ≠ .ready) : t.Inv := by
  have hfrom : s.cs.status ≠ .sending := fun h => by simpa [hfree] using hs.sendingIffRequest.1 h
  refine hs.of_statusMove ⟨htx, hline, hparams, hsq, ?_, ?_, hfrom, ?_, ?_⟩
  · simpa [hcs] using hs.timesFit.2.1
  · simpa [hcs] using hs.countersFit.1
  · rw [hcs]
    rcases tickEffect_status s with h | h | ⟨-, h⟩ <;> simp [h, hfrom]
  · simpa [State.receptionEnabled, hcs] using hs.tickEffect_receptionEnabled

/-- An edge does nothing, or its row fires (R152): the edge input is enabled, the time is stamped, and of the statuses
before and after none is `SENDING`, the one after neither `READY` nor `UNINITIALIZED`. -/
theorem receive_fires (l : Level) (s : State) : s.receive l = s ∨
    (s.cs.edgeEnable = true ∧ s.cs.status ≠ .sending ∧ (s.receive l).cs.lastEdgeTimestamp = s.now ∧
      (s.receive l).cs.status ≠ .sending ∧ (s.receive l).cs.status ≠ .ready ∧
      (s.receive l).cs.status ≠ .uninitialized) := by
  rcases receive_cases l s with h | ⟨he, hst | ⟨hst, -⟩, -, h⟩ | ⟨he, hst, -, h⟩ | ⟨he, hst, -, -, h⟩ |
    ⟨he, hst, -, h⟩ | ⟨he, hst, -, -, h⟩ | ⟨he, hst, -, -, h⟩
  · exact .inl h
  all_goals exact .inr (by rw [h]; simp [he, hst])

/-- A data bit is counted only below 32 (R157). -/
theorem receive_receivedBitCount {l : Level} {s : State} (h : s.cs.receivedBitCount.toNat ≤ 32) :
    (s.receive l).cs.receivedBitCount.toNat ≤ 32 := by
  rcases receive_cases l s with hr | ⟨-, -, -, hr⟩ | ⟨-, -, -, hr⟩ | ⟨-, -, -, -, hr⟩ | ⟨-, -, -, hr⟩ |
    ⟨-, -, -, hlt, hr⟩ | ⟨-, -, -, -, hr⟩ <;> rw [hr]
  · exact h
  · exact h
  · exact h
  · exact Nat.zero_le 32
  · exact h
  · change (s.cs.receivedBitCount + 1).toNat ≤ 32
    bv_omega
  · exact h

theorem State.Inv.receive {s : State} (hs : s.Inv) (l : Level) : (s.receive l).Inv := by
  rcases receive_fires l s with hsame | ⟨he, hfrom, hnow, hto, hready, huninit⟩
  · rwa [hsame]
  · refine hs.of_statusMove ⟨by simp, by simp, by simp, fun hq => ⟨by simpa using hq, hready⟩, ?_,
      receive_receivedBitCount hs.countersFit.1, hfrom, hto, receptionEnabled_of_enabled (by simpa using he) huninit⟩
    rw [hnow]
    exact s.now_lt

/-! ### The engine -/

/-- The first event of a request (R180, R181 step 1): `SENDING`, and the engine at the start bit of the request. -/
theorem State.Inv.beginRequest {s : State} (hs : s.Inv) (f : Frame) : (s.beginRequest f).Inv := by
  obtain ⟨hwidth, hstamp, -⟩ := hs.timesFit
  refine ⟨⟨?_, ?_, ?_⟩, ⟨?_, ?_⟩, ?_, ?_, fun _ => .inl ?_, ?_⟩
  · simpa using hwidth
  · simpa [State.period] using hstamp
  · simpa [State.period] using s.now_lt
  · simpa using hs.countersFit.1
  · simp
  · simp [State.lineDriven, isFramed_frameWord]
  · simp [State.sendingIffRequest]
  · simp
  · simp [State.receptionEnabled]

/-- A sequence may begin while a request is transmitted (R181 step 1). -/
theorem State.Inv.startSequence {s : State} (hs : s.Inv) (hbusy : s.tx.busy = true) (hkind : s.tx.kind = .request) :
    State.Inv { s with sqActive := true } :=
  { hs with sequencerOpen := fun _ => .inl ⟨hbusy, hkind⟩ }

/-- At a ready port the engine may take up a response or the hold: no request was being transmitted, and none is. -/
theorem State.Inv.of_otherWork {s t : State} (hs : s.Inv) (hready : s.cmdReady = true) (hcs : t.cs = s.cs)
    (hsq : t.sqActive = s.sqActive) (hparams : t.params = s.params) (ht0 : t.tx.t0 = s.now)
    (hphase : t.tx.phase.toNat ≤ 67) (hkind : t.tx.kind ≠ .request) (hline : t.lineDriven) : t.Inv := by
  obtain ⟨hfree, hidle⟩ := (cmdReady_iff s).1 hready
  obtain ⟨hwidth, hstamp, -⟩ := hs.timesFit
  have hperiod := State.period_congr hparams
  refine ⟨⟨?_, ?_, ?_⟩, ⟨?_, hphase⟩, hline, ?_, fun hq => ?_, ?_⟩
  · rwa [hparams]
  · rwa [hcs, hperiod]
  · rw [ht0, hperiod]; exact s.now_lt
  · rw [hcs]; exact hs.countersFit.1
  · simpa [State.sendingIffRequest, hcs, hkind, hfree] using hs.sendingIffRequest
  · simp [hsq, hidle] at hq
  · simpa [State.receptionEnabled, hcs] using hs.receptionEnabled

/-- The first event of a response (R182 step 1). -/
theorem State.Inv.beginResponse {s : State} (hs : s.Inv) (hready : s.cmdReady = true) (f : Frame) :
    (s.txBegin f .response).Inv :=
  hs.of_otherWork hready (by simp) (by simp) (by simp) (by simp) (by simp) (by simp)
    (by simp [State.lineDriven, isFramed_frameWord])

/-- The first event of the cold-start hold (R137). -/
theorem State.Inv.initHold {s : State} (hs : s.Inv) (hready : s.cmdReady = true) : s.initHold.Inv :=
  hs.of_otherWork hready (by simp) (by simp) (by simp) (by simp) (by simpa using hs.countersFit.2) (by simp)
    (by simp [State.lineDriven])

/-- The next phase of a transmission (R134): the same word, the level of that phase. -/
theorem State.Inv.nextPhase {s : State} (hs : s.Inv) (he : s.txStepEnabled = true) : s.nextPhase.Inv := by
  obtain ⟨hbusy, hkind, hlt, -⟩ := (txStepEnabled_iff s).1 he
  have hphase : (s.tx.phase.toNat + 1) % 128 = s.tx.phase.toNat + 1 := Nat.mod_eq_of_lt (by omega)
  have hframed : isFramed s.tx.word = true := by
    have := hs.lineDriven
    rw [State.lineDriven, if_pos ⟨hbusy, hkind⟩] at this
    exact this.2
  obtain ⟨hwidth, hstamp, ht0⟩ := hs.timesFit
  refine ⟨⟨?_, ?_, ?_⟩, ⟨?_, ?_⟩, ?_, ?_, ?_, ?_⟩
  · simpa using hwidth
  · simpa [State.period] using hstamp
  · simpa [State.period] using ht0
  · simpa using hs.countersFit.1
  · simpa [hphase] using hlt
  · simp [State.lineDriven, hbusy, hkind, hphase, hframed]
  · simpa [State.sendingIffRequest] using hs.sendingIffRequest
  · simpa [State.sequencerOpen] using hs.sequencerOpen
  · simpa [State.receptionEnabled] using hs.receptionEnabled

/-- What the end of the engine's work does: the engine free and otherwise as it was, the line idle, the status that of the
command's end, the times and the edge input as the rules have them. -/
structure State.EngineEnd (s t : State) : Prop where
  tx        : t.tx = { s.tx with busy := false }
  lineOut   : t.lineOut = .idle
  params    : t.params = s.params
  timestamp : t.cs.lastEdgeTimestamp < s.period
  bitCount  : t.cs.receivedBitCount = s.cs.receivedBitCount
  status    : t.cs.status ≠ .sending
  sqActive  : t.sqActive = true → t.cs.status ≠ .ready
  reception : t.receptionEnabled

theorem State.Inv.of_engineEnd {s t : State} (hs : s.Inv) (h : s.EngineEnd t) : t.Inv := by
  have hperiod := State.period_congr h.params
  obtain ⟨hwidth, -, ht0⟩ := hs.timesFit
  refine ⟨⟨?_, ?_, ?_⟩, ⟨?_, ?_⟩, ?_, ?_, fun hq => .inr ⟨?_, h.sqActive hq⟩, h.reception⟩
  · rwa [h.params]
  · rw [hperiod]; exact h.timestamp
  · rwa [h.tx, hperiod]
  · rw [h.bitCount]; exact hs.countersFit.1
  · rw [h.tx]; exact hs.countersFit.2
  · simp [State.lineDriven, h.tx, h.lineOut]
  · simp [State.sendingIffRequest, h.tx, h.status]
  · rw [h.tx]

/-- The end of a request (R180 step 3): `AWAITING_RESPONSE`, its time the last edge's. -/
theorem State.Inv.endRequest {s : State} (hs : s.Inv) : ((s.lineWrite .idle).freeEngine.endRequest).Inv :=
  hs.of_engineEnd
    { tx := by simp
      lineOut := by simp
      params := by simp
      timestamp := by simpa using s.now_lt
      bitCount := by simp
      status := by simp
      sqActive := by simp
      reception := by simp [State.receptionEnabled] }

/-- The end of a response (R182 step 3): `READY`. -/
theorem State.Inv.endResponse {s : State} (hs : s.Inv) (hbusy : s.tx.busy = true) (hkind : s.tx.kind = .response) :
    (((s.lineWrite .idle).freeEngine.setStatus .ready).withRes 1).Inv :=
  hs.of_engineEnd
    { tx := by simp
      lineOut := by simp
      params := by simp
      timestamp := by simpa using hs.timesFit.2.1
      bitCount := by simp
      status := by simp
      sqActive := by simp [hs.sqActive_of_kind hbusy (by simp [hkind])]
      reception := by simp [State.receptionEnabled] }

/-- The end of the cold-start hold (R137, R171 step 3): `READY`, the edge input enabled. -/
theorem State.Inv.endHold {s : State} (hs : s.Inv) (hbusy : s.tx.busy = true) (hkind : s.tx.kind = .init) :
    (State.withRes 0 { s.freeEngine with cs := { s.cs with status := .ready, edgeEnable := true } }).Inv :=
  hs.of_engineEnd
    { tx := by simp
      lineOut := by simpa [State.lineDriven, hkind] using hs.lineDriven
      params := by simp
      timestamp := by simpa using hs.timesFit.2.1
      bitCount := by simp
      status := by simp
      sqActive := by simp [hs.sqActive_of_kind hbusy (by simp [hkind])]
      reception := by simp [State.receptionEnabled] }

/-! ### Reset -/

/-- `RESET` brings the invariant about (R36, R230), whatever was going on: only the positive width is needed. -/
theorem toReset_inv {s : State} (hwidth : 0 < s.params.tsWidth) : s.toReset.Inv := by
  refine ⟨⟨?_, ?_, ?_⟩, ⟨?_, ?_⟩, ?_, ?_, ?_, ?_⟩
  · simpa using hwidth
  · exact s.toReset.period_pos
  · exact s.toReset.period_pos
  · simp [Channel.reset]
  · simp [Engine.reset]
  · simp [State.lineDriven, Engine.reset]
  · simp [State.sendingIffRequest, Engine.reset, Channel.reset]
  · simp [State.sequencerOpen]
  · simp [State.receptionEnabled, Channel.reset]

/-- Settles O59: the state after reset is a `RESET` of itself. -/
theorem invariantAtReset : Obligations.InvariantAtReset :=
  toReset_inv (s := State.reset) (by decide)

/-! ### The step -/

theorem Performs.inv {s t : State} {i : Instr} (hs : s.Inv) (h : Performs s i t) : t.Inv := by
  have ho := hs.openEvent
  cases h with
  | answer v => exact ho.of_sameRegisters ⟨rfl, rfl, rfl, rfl, rfl⟩
  | arrive levels => exact ho.of_sameRegisters ⟨rfl, rfl, rfl, rfl, rfl⟩
  | hold _ hready => exact ho.initHold hready
  | requestAsync f => exact ho.beginRequest f
  | request f => exact (ho.beginRequest f).startSequence (by simp) (by simp)
  | response f hready => exact ho.beginResponse hready f
  | tick hready =>
    obtain ⟨hfree, hsq⟩ := (cmdReady_iff s).1 hready
    exact ho.tick hfree rfl (by simp) (by simp) (by simp) (by simp [hsq])
  | sequencerTick henabled =>
    obtain ⟨-, hfree, -⟩ := (sequencerEnabled_iff s).1 henabled
    exact ho.tick hfree (by simp) (by simp) (by simp) (by simp) (by simp [State.endSequence_sqActive])
  | edge l =>
    have hline : (s.openEvent.setLineIn l).Inv := ho.of_sameRegisters ⟨rfl, rfl, rfl, rfl, rfl⟩
    exact hline.receive l
  | reset => exact toReset_inv hs.timesFit.1
  | phase henabled => exact ho.nextPhase henabled
  | requestEnd => exact ho.endRequest
  | responseEnd henabled hkind =>
    obtain ⟨hbusy, -⟩ := (txEndEnabled_iff s).1 henabled
    exact ho.endResponse hbusy hkind
  | holdEnd henabled =>
    obtain ⟨hbusy, hkind, -⟩ := (initEndEnabled_iff s).1 henabled
    exact ho.endHold hbusy hkind

theorem exec_inv {i : Instr} {s t : State} (hs : s.Inv) (h : exec i s = .next t) : t.Inv :=
  (exec_performs h).inv hs

/-- Settles O60: an idle moment changes no register, taking an event none either, and every instruction that completes
keeps the invariant. -/
theorem invariantKeptByEveryStep : Obligations.InvariantKeptByEveryStep := by
  intro s t hs h
  rcases step_next h with ⟨-, rfl⟩ | ⟨c, i, -, -, he⟩
  · exact hs.openEvent
  · exact exec_inv (hs.advance c) he

end Sys2Proof.Machine
end

section
/-! Proof of the memory statement (spec/20_memory.md): coincident events in the order of R63, with `RESET` first (log 5)
and a sequencer tick behind an `EDGE` (log 28). -/

namespace Sys2Proof.Machine

/-- The place of a source at a tie: R63 and R211 for `EDGE`, engine and command; `RESET` and a tick by logs 5 and 28. -/
def Source.rank : Source → Nat
  | .rst => 0
  | .line => 1
  | .engine => 2
  | .sequencer => 3
  | .host => 3

theorem map_source_toList_sublist {α : Type} (o : Option α) (src : Source) (time : α → Nat) :
    ((o.map fun x => Candidate.mk src (time x)).toList.map (·.source)).Sublist [src] := by
  cases o with
  | none => exact List.nil_sublist _
  | some x => exact List.Sublist.refl _

theorem map_source_ite_sublist {p : Prop} [Decidable p] {l : List Candidate} {sources : List Source}
    (h : (l.map (·.source)).Sublist sources) : ((if p then l else []).map (·.source)).Sublist sources := by
  split
  · exact h
  · exact List.nil_sublist _

/-- Each source brings at most one candidate, and they stand in one fixed order. -/
theorem candidates_sources_sublist (s : State) :
    (s.candidates.map (·.source)).Sublist [.rst, .line, .engine, .sequencer, .host] := by
  have hrst := map_source_toList_sublist s.env.rstScript.head? .rst (max s.env.clock ·)
  have hline := map_source_toList_sublist s.env.lineScript.head? .line (max s.env.clock ·.time)
  have hhost := map_source_toList_sublist s.env.hostScript.head? .host (max s.env.clock ·.time)
  simp only [State.candidates, List.map_append]
  exact (hrst.append hline).append
    (((map_source_ite_sublist (.refl _)).append (map_source_ite_sublist (.refl _))).append
      (map_source_ite_sublist hhost))

theorem candidates_pairwise_rank (s : State) :
    s.candidates.Pairwise fun c d => c.source.rank ≤ d.source.rank := by
  have horder : [Source.rst, .line, .engine, .sequencer, .host].Pairwise fun a b => a.rank ≤ b.rank := by decide
  have hsources := horder.sublist (candidates_sources_sublist s)
  rwa [List.pairwise_map] at hsources

/-- Settles O8: the candidates are listed in the order of their ranks, and the earliest of such a list comes, in that
order, before every other of its time. -/
theorem coincidentEventsAreOrdered : Obligations.CoincidentEventsAreOrdered := by
  intro s c d hnext hd
  exact earliest_first (R := fun c d => c.source.rank ≤ d.source.rank) (fun _ => le_rfl)
    (candidates_pairwise_rank s) hnext d hd

end Sys2Proof.Machine
end

section
/-! Proofs of the encoding statements (spec/30_encoding.md): the command word by its code (R79, R80), reserved codes
(R85), the formats of the line as what arrives (R70, R73, R74; log 7), and what can stop a step. -/

namespace Sys2Proof.Machine

/-! ## The fields of form (b) of `A` (R79), as quotients -/

theorem extractLsb'_eq_ofNat {n : Nat} (v : BitVec n) (start len : Nat) :
    v.extractLsb' start len = BitVec.ofNat len (v.toNat / 2 ^ start) := by
  rw [BitVec.extractLsb', Nat.shiftRight_eq_div_pow]

theorem fieldType_eq (a : Word) : fieldType a = MsgType.ofCode (BitVec.ofNat 3 (a.toNat / 2 ^ 28)) := by
  rw [fieldType, extractLsb'_eq_ofNat]

theorem fieldId_eq (a : Word) : fieldId a = BitVec.ofNat 8 (a.toNat / 2 ^ 16) :=
  extractLsb'_eq_ofNat a 16 8

theorem fieldData_eq (a : Word) : fieldData a = BitVec.ofNat 16 a.toNat := by
  rw [fieldData, extractLsb'_eq_ofNat, Nat.pow_zero, Nat.div_one]

/-! ## Command words -/

/-- The eleven reserved codes (R80, R85). -/
theorem reserved_code_cases : ∀ op : BitVec 5, op = 0x0E ∨ op = 0x0F ∨ 0x17 ≤ op.toNat →
    op = 0x0E ∨ op = 0x0F ∨ op = 0x17 ∨ op = 0x18 ∨ op = 0x19 ∨ op = 0x1A ∨ op = 0x1B ∨ op = 0x1C ∨ op = 0x1D ∨
    op = 0x1E ∨ op = 0x1F := by decide

/-- A reserved code decodes to its own reserved row, whatever `A` and `B` hold (R79, R85). -/
theorem reservedCodeOf_decodeCommand {op : BitVec 5} (h : op = 0x0E ∨ op = 0x0F ∨ 0x17 ≤ op.toNat) (b : BitVec 16)
    (a : Word) : reservedCodeOf (decodeCommand (cmdWord op b a)) = some op := by
  rcases reserved_code_cases op h with rfl | rfl | rfl | rfl | rfl | rfl | rfl | rfl | rfl | rfl | rfl <;>
    simp [decodeCommand, reservedCodeOf]

/-- Settles O5: the word is `cmdWord`, whose fields read back, and the decoder chooses by the code alone. -/
theorem commandWordsDecodeByTheirCode : Obligations.CommandWordsDecodeByTheirCode := by
  intro b a
  dsimp only
  rw [← fieldType_eq, ← fieldId_eq, ← fieldData_eq]
  have key (op : BitVec 5) : decode ⟨.cmd, op ++ b ++ a⟩ = .ok (decodeCommand (cmdWord op b a)) :=
    decode_cmdPacket op b a
  refine ⟨?_, ?_, ?_, ?_, ?_, ?_, ?_, ?_, ?_, ?_, ?_, ?_, ?_, ?_, ?_, ?_, ?_, ?_, ?_, ?_, ?_,
    fun op hop => ⟨_, key op, reservedCodeOf_decodeCommand hop b a⟩⟩
  all_goals simp [key, decodeCommand]

/-- Settles O1: nine closed words. -/
theorem tableWordsDecode : Obligations.TableWordsDecode := by
  unfold Obligations.TableWordsDecode
  decide

/-- Settles O23. -/
theorem reservedCodesAreRefused : Obligations.ReservedCodesAreRefused :=
  fun _ _ s h => exec_reserved h s

/-! ## What arrives on the line -/

/-- Settles O52: a format of the line is a waveform that arrives, and the edges put in place keep the others. -/
theorem lineRowsLeaveTheBlockAlone : Obligations.LineRowsLeaveTheBlockAlone := by
  intro i s h
  obtain ⟨levels, hl⟩ := exec_lineFormat h
  exact ⟨_, by rw [hl s, arriveWave_openEvent], fun _ ha => mem_insertArrivals ha⟩

/-- On an idle line with nothing to come a waveform brings its own transitions, and nothing else changes (R136). -/
theorem arriveWave_quiet {s : State} (hidle : s.env.lineIn = .idle) (hnone : s.env.lineScript = [])
    (levels : List Level) :
    s.openEvent.arriveWave levels = { s with
      out := { res := none, done := none }
      env := { s.env with lineScript := transitions .idle s.env.clock levels } } := by
  rw [arriveWave_openEvent, hidle, hnone, insertArrivals_sorted (transitions_sorted _ _ _) (by simp), List.nil_append]

/-- A frame's transmission ends idle (R74): the idle level after it brings no further edge. -/
theorem transitions_frame_idle (f : Frame) (t : Nat) :
    transitions .idle t (txWave (frameWord f) ++ [.idle]) = frameEdges f t := by
  have hlast : (Level.idle :: txWave (frameWord f)).getLast (by simp) = .idle := by
    simp [txWave_frame, symbolWave, Level.ofBool]
  rw [transitions_append, hlast, transitions_same, transitions, List.append_nil, frameEdges]

/-- Settles O51: the frame rows and the transmission word are one arrival, and the symbols are their two halves. -/
theorem lineRowsBringTheirEdges : Obligations.LineRowsBringTheirEdges := by
  intro s hidle hnone brings
  have quiet (levels : List Level) :
      s.openEvent.arriveWave levels = brings (transitions .idle s.env.clock levels) :=
    arriveWave_quiet hidle hnone levels
  refine ⟨fun f => ?_, ?_, ?_⟩
  · have frame : exec (.frameReadData f) s = .next (brings (frameEdges f s.env.clock)) := by
      rw [← transitions_frame_idle, ← quiet]; rfl
    exact ⟨frame, frame, frame, frame, frame, frame, frame, frame, frame⟩
  · exact congrArg _ (quiet (symbolWave true))
  · exact congrArg _ (quiet (symbolWave false))

/-! ## What can stop a step -/

theorem isLineFormat_decodeFrame (f : Frame) : isLineFormat (decodeFrame f) = true := by
  unfold decodeFrame; split <;> rfl

theorem isLineFormat_of_decodeSymbol {v : BitVec 2} {i : Instr} (h : decodeSymbol v = .ok i) :
    isLineFormat i = true := by
  unfold decodeSymbol at h
  split at h <;> cases h <;> rfl

theorem isLineFormat_of_decodeTxWord {w : TxWord} {i : Instr} (h : decodeTxWord w = .ok i) : isLineFormat i = true := by
  unfold decodeTxWord at h
  split at h <;> cases h
  rfl

theorem exec_lineFormat_next {i : Instr} (h : isLineFormat i = true) (s : State) : ∃ t, exec i s = .next t := by
  obtain ⟨levels, hl⟩ := exec_lineFormat h
  exact ⟨_, hl s⟩

/-- What a line unit brings is an edge or a format of the line, which always completes. -/
theorem exec_lineUnit {u : LineUnit} {i : Instr} (h : decode u.packet = .ok i) (s : State) :
    ∃ t, exec i s = .next t := by
  rw [decode_fits (fits_of_decode_ok h)] at h
  cases u with
  | edge l => cases h; exact ⟨_, rfl⟩
  | symbol halves => exact exec_lineFormat_next (isLineFormat_of_decodeSymbol h) s
  | frame f => cases h; exact exec_lineFormat_next (isLineFormat_decodeFrame _) s
  | word w => exact exec_lineFormat_next (isLineFormat_of_decodeTxWord h) s

/-- The command port carries no format of the line and no signal (R80, R82). -/
theorem decodeCommand_isCommand (w : CmdWord) :
    isLineFormat (decodeCommand w) = false ∧ isSignal (decodeCommand w) = false := by
  unfold decodeCommand
  dsimp only
  split <;> exact ⟨rfl, rfl⟩

/-- A controller command is accepted as the port stands (R186), a `TICK` where it is not the sequencer's. -/
theorem exec_controller_accept {i : Instr} (hi : isController i = true) {s : State}
    (hseq : i = .tick → s.sequencerEnabled = false) : ∃ run, exec i s = s.accept run := by
  cases i with
  | tick => exact ⟨_, if_neg (by simp [hseq rfl])⟩
  | sendRequestAsync f => exact ⟨_, (rfl : execSendRequestAsync f s = _)⟩
  | sendRequest f => exact ⟨_, (rfl : execSendRequest f s = _)⟩
  | initChannel | sendResponse | isReady | getLastResponseStatus => exact ⟨_, rfl⟩
  | _ => exact absurd hi Bool.false_ne_true

/-- At a ready port a command completes, unless its code is reserved (R85, R186). -/
theorem exec_command_ready (w : CmdWord) {s : State} (hready : s.cmdReady = true) :
    (∃ t, exec (decodeCommand w) s = .next t) ∨
    ∃ k, exec (decodeCommand w) s = .refused (.reservedCommand k) := by
  obtain ⟨hline, hsignal⟩ := decodeCommand_isCommand w
  rcases instr_family (decodeCommand w) with hi | hi | ⟨k, hi⟩ | hi | hi
  · obtain ⟨v, hv⟩ := exec_codec hi s
    exact .inl ⟨_, hv.trans (answer_ready v hready)⟩
  · obtain ⟨-, hsq⟩ := (cmdReady_iff s).1 hready
    obtain ⟨run, hrun⟩ := exec_controller_accept hi (s := s) fun _ => by simp [State.sequencerEnabled, hsq]
    exact .inl ⟨_, hrun.trans (accept_ready run hready)⟩
  · exact .inr ⟨k, exec_reserved hi s⟩
  · simp [hline] at hi
  · simp [hsignal] at hi

/-- The sequencer's tick, when it comes, is enabled: it is later than the tick before (R181). -/
theorem sequencerTick_runs {s : State} (hsq : s.sqActive = true) (hfree : s.tx.busy = false) :
    ∃ t, exec .tick (s.advance ⟨.sequencer, max s.env.clock s.pollTime⟩) = .next t := by
  have hlater : s.poll.after < max s.env.clock s.pollTime := lt_max_of_lt_right s.after_lt_pollTime
  have henabled : (s.advance ⟨.sequencer, max s.env.clock s.pollTime⟩).sequencerEnabled = true :=
    (sequencerEnabled_iff _).2 (by simpa [hsq, hfree] using hlater)
  exact ⟨_, if_pos henabled⟩

/-- Settles O10, by the source of the next event: each is asked for only where its rule enables it. -/
theorem stepStopsOnlyOnReservedOrUndecodable : Obligations.StepStopsOnlyOnReservedOrUndecodable := by
  intro s
  rcases step_cases s with ⟨-, hs⟩ | ⟨c, e, -, -, hs⟩ | ⟨c, i, hn, hd, hs⟩
  · exact .inl ⟨_, hs⟩
  · exact .inr (.inr ⟨e, hs⟩)
  rw [hs]
  rcases mem_candidates (earliest_mem hn) with
    ⟨t, -, rfl⟩ | ⟨a, ha, rfl⟩ | ⟨w, hw, rfl⟩ | ⟨hsq, hfree, rfl⟩ | ⟨k, hready, hk, rfl⟩
  · cases hd
    exact .inl ⟨_, rfl⟩
  · rw [State.eventPacket, ha] at hd
    exact .inl (exec_lineUnit hd _)
  · obtain ⟨j, hj, ht⟩ := engine_runs hw
    rw [State.eventPacket, hw] at hd
    cases hj.symm.trans hd
    exact .inl ht
  · have htick : decode tickPacket = .ok .tick := rfl
    cases htick.symm.trans hd
    exact .inl (sequencerTick_runs hsq hfree)
  · rw [State.eventPacket, hk, Option.map_some, Option.getD_some, decode_fits k.word.isLt] at hd
    cases hd
    exact (exec_command_ready k.word (by simpa [State.cmdReady] using hready)).imp_right .inl

end Sys2Proof.Machine
end

section
/-! Proofs of the codec statements (spec/40_frame_codec.md): what each of the fourteen commands answers at a ready port
(R100 to R114), and the laws (a), (c) and (f) of R116. -/

namespace Sys2Proof.Machine

/-! ## The command word `{OP, B, A}` (R79), written as a concatenation -/

@[simp] theorem cmdOp_append (op : BitVec 5) (b : BitVec 16) (a : Word) : cmdOp (op ++ b ++ a) = op :=
  cmdOp_cmdWord op b a

@[simp] theorem cmdB_append (op : BitVec 5) (b : BitVec 16) (a : Word) : cmdB (op ++ b ++ a) = b :=
  cmdB_cmdWord op b a

@[simp] theorem cmdA_append (op : BitVec 5) (b : BitVec 16) (a : Word) : cmdA (op ++ b ++ a) = a :=
  cmdA_cmdWord op b a

/-- Form (b) of `A` as a number, whatever the ignored bits `A[31]` and `A[27:24]` hold (R79). -/
theorem formB_toNat (x : BitVec 1) (c : BitVec 3) (y : BitVec 4) (id : BitVec 8) (data : BitVec 16) :
    (x ++ c ++ y ++ id ++ data).toNat =
      x.toNat * 2 ^ 31 + c.toNat * 2 ^ 28 + y.toNat * 2 ^ 24 + id.toNat * 2 ^ 16 + data.toNat := by
  simp only [append_toNat]
  omega

@[simp] theorem fieldType_formB (x : BitVec 1) (t : MsgType) (y : BitVec 4) (id : BitVec 8) (data : BitVec 16) :
    fieldType (x ++ t.code ++ y ++ id ++ data) = t := by
  have hcode : (x ++ t.code ++ y ++ id ++ data).extractLsb' 28 3 = t.code := by
    apply BitVec.eq_of_toNat_eq
    rw [extractLsb'_toNat, formB_toNat]
    omega
  rw [fieldType, hcode, ofCode_code]

@[simp] theorem fieldId_formB (x : BitVec 1) (c : BitVec 3) (y : BitVec 4) (id : BitVec 8) (data : BitVec 16) :
    fieldId (x ++ c ++ y ++ id ++ data) = id := by
  apply BitVec.eq_of_toNat_eq
  rw [fieldId, extractLsb'_toNat, formB_toNat]
  omega

@[simp] theorem fieldData_formB (x : BitVec 1) (c : BitVec 3) (y : BitVec 4) (id : BitVec 8) (data : BitVec 16) :
    fieldData (x ++ c ++ y ++ id ++ data) = data := by
  apply BitVec.eq_of_toNat_eq
  rw [fieldData, extractLsb'_toNat, formB_toNat]
  omega

/-! ## Result words (R81) as numbers -/

/-- A command whose value is `w` writes `w` to the result port and nothing else (R100). -/
theorem answer_value {s : State} {v w : Word} (hready : s.cmdReady = true) (hv : v = w) :
    s.answer v = .next { s with out := { res := some w, done := none } } :=
  hv ▸ answer_ready v hready

/-- A zero-extended bit field is its quotient and remainder. -/
theorem zext_extractLsb' (f : Frame) (start len : Nat) :
    zext (f.extractLsb' start len) = BitVec.ofNat 32 (f.toNat / 2 ^ start % 2 ^ len) := by
  rw [zext, ← BitVec.ofNat_toNat, extractLsb'_toNat]

theorem dataField_toNat (f : Frame) : (dataField f).toNat = f.toNat % 65536 := by
  rw [dataField, extractLsb'_toNat, Nat.pow_zero, Nat.div_one]; rfl

/-- The data value as two's complement (R107, R108). -/
theorem sext_dataField (f : Frame) :
    sext (dataField f) = BitVec.ofInt 32
      (if f.toNat % 65536 < 32768 then (f.toNat % 65536 : Nat) else (f.toNat % 65536 : Nat) - 65536) := by
  rw [sext, BitVec.signExtend, BitVec.toInt_eq_toNat_cond, dataField_toNat]
  congr 1
  split <;> split <;> omega

theorem boolWord_parity (f : Frame) : boolWord (parity f) = if onesOf f % 2 = 1 then 1 else 0 := by
  simp [boolWord, parity_eq]

theorem msgTypeField_eq_iff (f : Frame) (c : BitVec 3) : msgTypeField f = c ↔ f.toNat / 2 ^ 28 % 8 = c.toNat := by
  rw [BitVec.toNat_eq, msgTypeField, extractLsb'_toNat]; rfl

theorem boolWord_validRequest (f : Frame) :
    boolWord (validRequest f) =
      if f.toNat / 2 ^ 28 % 8 = 0 ∨ f.toNat / 2 ^ 28 % 8 = 1 ∨ f.toNat / 2 ^ 28 % 8 = 2 then 1 else 0 := by
  simp [boolWord, validRequest, msgTypeField_eq_iff, or_assoc]

theorem boolWord_validResponse (f : Frame) :
    boolWord (validResponse f) =
      if f.toNat / 2 ^ 28 % 8 = 4 ∨ f.toNat / 2 ^ 28 % 8 = 5 ∨ f.toNat / 2 ^ 28 % 8 = 6 ∨ f.toNat / 2 ^ 28 % 8 = 7
      then 1 else 0 := by
  simp [boolWord, validResponse, msgTypeField_eq_iff, or_assoc]

/-- The data word of a temperature is the clamped ratio itself: 25600 fits its 16 bits (R111). -/
theorem temperatureWord_toNat (n : Nat) (a : Word) :
    (temperatureWord (.fixed n) a).toNat = temperatureRatio a.toInt (2 ^ n) := by
  obtain ⟨-, -, -, hle⟩ := temperatureRatio_spec a.toInt (2 ^ n) (Nat.two_pow_pos n)
  exact Nat.mod_eq_of_lt (by omega)

/-! ## The commands one by one -/

/-- Settles O12: the parity function is the odd count. -/
theorem parityAnswersOddCount : Obligations.ParityAnswersOddCount := by
  intro f b s hready
  exact ⟨by simp [decodeCommand], answer_value hready (boolWord_parity f)⟩

/-- Settles O13: both builders answer `buildFrame`, assembled below bit 31 and made even by the parity bit. -/
theorem buildersAssembleEvenFrames : Obligations.BuildersAssembleEvenFrames := by
  intro t id data b x y s hready
  exact ⟨by simp [decodeCommand], by simp [decodeCommand], buildFrame t id data, answer_ready _ hready,
    answer_ready _ hready, buildFrame_low t id data, onesOf_insertParity (assemble_lt t id data)⟩

/-- Settles O14: each reader answers a bit field. -/
theorem fieldReadersAnswerTheirBits : Obligations.FieldReadersAnswerTheirBits := by
  intro f b s hready
  have low (len : Nat) : zext (f.extractLsb' 0 len) = BitVec.ofNat 32 (f.toNat % 2 ^ len) := by
    rw [zext_extractLsb', Nat.pow_zero, Nat.div_one]
  refine ⟨?_, ?_, ?_, ?_, ?_, answer_value hready (zext_extractLsb' f 28 3),
    answer_value hready (zext_extractLsb' f 16 8), answer_value hready (low 16),
    answer_value hready (zext_extractLsb' f 8 8), answer_value hready (low 8)⟩
  all_goals simp [decodeCommand]

/-- Settles O15: both readers sign-extend the data field. -/
theorem signedReadersAnswerTwosComplement : Obligations.SignedReadersAnswerTwosComplement := by
  intro f b s hready
  exact ⟨by simp [decodeCommand], by simp [decodeCommand], answer_value hready (sext_dataField f),
    answer_value hready (sext_dataField f)⟩

/-- Settles O16: the answer is the clamped ratio, zero-extended. -/
theorem temperatureClampsAndTruncates : Obligations.TemperatureClampsAndTruncates := by
  intro a b n s hready hformat
  have hword : (zext (temperatureWord s.params.tempIn a)).toNat = temperatureRatio a.toInt (2 ^ n) := by
    rw [zext, BitVec.toNat_setWidth_of_le (by decide), hformat, temperatureWord_toNat]
  obtain ⟨hlow, hhigh, hinside, -⟩ := temperatureRatio_spec a.toInt (2 ^ n) (Nat.two_pow_pos n)
  push_cast at hhigh hinside
  refine ⟨by simp [decodeCommand], _, answer_ready _ hready, ?_⟩
  rw [hword]
  exact ⟨hlow, hhigh, hinside⟩

/-- Settles O17: the predicates compare the type field only. -/
theorem validityIsByTypeOnly : Obligations.ValidityIsByTypeOnly := by
  intro f b s hready
  exact ⟨by simp [decodeCommand], by simp [decodeCommand], answer_value hready (boolWord_validRequest f),
    answer_value hready (boolWord_validResponse f)⟩

/-- Settles O18: the assembled frame is below bit 31, where the parity bit is put. -/
theorem modifyKeepsTypeSpareAndId : Obligations.ModifyKeepsTypeSpareAndId := by
  intro f data s hready
  have hlow : (modifyData f data).toNat % 2 ^ 31 = f.toNat / 2 ^ 16 % 2 ^ 15 * 2 ^ 16 + data.toNat := by
    rw [modifyData, insertParity_low (replaceData_lt f data), replaceData_toNat]
  exact ⟨by simp [decodeCommand], modifyData f data, answer_ready _ hready, hlow,
    onesOf_insertParity (replaceData_lt f data)⟩

/-! ## The laws of R116 -/

/-- Settles O19: the fields of a built frame are its operands, and its parity bit makes it even. -/
theorem builtFramesReadBack : Obligations.BuiltFramesReadBack := by
  intro t id data s hready
  have hparity : parity (buildFrame t id data) = false := parity_insertParity (assemble_lt t id data)
  exact ⟨buildFrame t id data, answer_ready _ hready,
    answer_value hready (congrArg zext (msgTypeField_buildFrame t id data)),
    answer_value hready (congrArg zext (dataIdField_buildFrame t id data)),
    answer_value hready (congrArg zext (dataField_buildFrame t id data)),
    answer_value hready (congrArg boolWord hparity)⟩

/-- A data word below `2 ^ 15` is read by `GET_FLOAT` as it stands (R108). -/
theorem sext_toInt_of_lt {v : BitVec 16} (h : v.toNat < 2 ^ 15) : (sext v).toInt = v.toNat := by
  rw [sext, BitVec.toInt_signExtend_of_le (by decide), BitVec.toInt_eq_toNat_of_lt (by omega)]

/-- Settles O20: the frame carries the data word unchanged, and the word is the floor of `256 x`, at most 25600. -/
theorem temperatureRoundTripWithin256th : Obligations.TemperatureRoundTripWithin256th := by
  intro a t id s hready hformat hnonneg hle
  have hword : (temperatureWord s.params.tempIn a).toNat = temperatureRatio a.toInt (2 ^ 16) := by
    rw [hformat, temperatureWord_toNat]
  obtain ⟨-, -, hfloor, hmax⟩ := temperatureRatio_spec a.toInt (2 ^ 16) (Nat.two_pow_pos 16)
  have hdata : (zext (temperatureWord s.params.tempIn a)).setWidth 16 = temperatureWord s.params.tempIn a :=
    BitVec.setWidth_setWidth_of_le _ (by decide)
  have hread : (sext (temperatureWord s.params.tempIn a)).toInt = temperatureRatio a.toInt (2 ^ 16) := by
    rw [sext_toInt_of_lt (by omega), hword]
  refine ⟨_, _, sext (temperatureWord s.params.tempIn a), answer_ready _ hready, answer_ready _ hready,
    answer_value hready (congrArg sext ((dataField_buildFrame _ _ _).trans hdata)), ?_⟩
  rw [hread]
  have := hfloor hnonneg (by simpa using hle)
  omega

/-- Settles O21: one flip negates the parity, so a second flip gives it back. -/
theorem oneFlippedBitFailsParity : Obligations.OneFlippedBitFailsParity := by
  intro f j k hj hk
  refine ⟨parity_flip f j hj, fun _ => ?_⟩
  rw [parity_flip _ k hk, parity_flip f j hj, Bool.not_not]

/-! ## Purity (R100) -/

/-- Two states with the same parameters get the same value from a codec command; only `TEMPERATURE_TO_DATA` looks at a
parameter, its operand's format (R111). -/
theorem exec_codec_congr {i : Instr} (h : isCodec i = true) {s u : State} (hparams : s.params = u.params) :
    ∃ v, exec i s = s.answer v ∧ exec i u = u.answer v := by
  cases i with
  | temperatureToData a => exact ⟨zext (temperatureWord s.params.tempIn a), rfl, by rw [hparams]; rfl⟩
  | parity | buildRequest | buildResponse | getMessageType | getDataId | getUInt16 | getInt16 | getFloat | getUbUInt8
  | getLbUInt8 | isValidRequest | isValidResponse | modifyMsgData => exact ⟨_, rfl, rfl⟩
  | _ => exact absurd h Bool.false_ne_true

/-- Settles O22: the one value both states answer. -/
theorem codecIsPure : Obligations.CodecIsPure := by
  intro i s u hcodec hs hu hparams
  obtain ⟨v, hvs, hvu⟩ := exec_codec_congr hcodec hparams
  exact ⟨v, hvs.trans (answer_ready v hs), hvu.trans (answer_ready v hu)⟩

end Sys2Proof.Machine
end

section
/-! Proofs of the line driver statements (spec/41_line_driver.md): a phase and its level (R132, R134), the end of a
transmission (R135), a whole one as steps (R131, R138), its edges (R136), and what leaves it alone (R140). -/

namespace Sys2Proof.Machine

/-! ## The engine's next event -/

/-- The level of a phase by cases: even phases carry the symbol, odd phases its complement (R132). -/
theorem txLevel_eq (w : TxWord) (p : Nat) :
    txLevel w p = if w.getLsbD (33 - p / 2) = (p % 2 == 0) then .active else .idle := by
  rw [txLevel]
  rcases Nat.mod_two_eq_zero_or_one p with hp | hp <;> cases w.getLsbD (33 - p / 2) <;> simp [hp, Level.ofBool]

/-- The first half of the start bit of a framed word is `ACTIVE` (R74, R132). -/
theorem txLevel_first {w : TxWord} (h : isFramed w = true) : txLevel w 0 = .active := by
  obtain ⟨hstart, -⟩ := Bool.and_eq_true_iff.1 h
  simp [txLevel_eq, hstart]

/-- While it transmits, the engine is due at the end of the phase being driven (R134, R135). -/
theorem Engine.dueAt_phase {e : Engine} (hk : e.kind ≠ .init) : e.dueAt = e.t0 + 500 * (e.phase.toNat + 1) := by
  unfold Engine.dueAt
  split
  · contradiction
  · rfl
  · rfl

theorem Engine.nextWire_txStep {e : Engine} (hb : e.busy = true) (hk : e.kind ≠ .init) (hp : e.phase.toNat < 67) :
    e.nextWire = some .txStep := by
  cases h : e.kind <;> simp_all [Engine.nextWire]

theorem Engine.nextWire_txEnd {e : Engine} (hb : e.busy = true) (hk : e.kind ≠ .init) (hp : e.phase.toNat = 67) :
    e.nextWire = some .txEnd := by
  cases h : e.kind <;> simp_all [Engine.nextWire]

/-- At the end of the phase being driven the engine's event is due. -/
theorem engineDue_of_phase {s : State} (hk : s.tx.kind ≠ .init)
    (h : s.env.clock % 2 ^ s.params.tsWidth = (s.tx.t0 + 500 * (s.tx.phase.toNat + 1)) % 2 ^ s.params.tsWidth) :
    s.engineDue = true := by
  rw [State.engineDue, Engine.dueAt_phase hk]
  exact beq_iff_eq.2 h

/-- At 34,000 µs, the end of the last phase, the end of the transmission is enabled (R135). -/
theorem txEndEnabled_of_last {s : State} (hb : s.tx.busy = true) (hk : s.tx.kind ≠ .init)
    (hp : s.tx.phase.toNat = 67)
    (h : s.env.clock % 2 ^ s.params.tsWidth = (s.tx.t0 + 34000) % 2 ^ s.params.tsWidth) :
    s.txEndEnabled = true :=
  (txEndEnabled_iff s).2 ⟨hb, hk, hp, engineDue_of_phase hk (by rw [h, hp])⟩

/-! ## The engine's events -/

theorem exec_txStep {s : State} (h : s.txStepEnabled = true) : exec .txStep s = .next s.openEvent.nextPhase :=
  whenEnabled_true _ h

/-- The next phase is its number, its level and the echo of its transition. -/
theorem nextPhase_eq (s : State) : s.nextPhase = { s with
    tx := { s.tx with phase := s.tx.phase + 1 }
    lineOut := txLevel s.tx.word (s.tx.phase.toNat + 1)
    env := s.echo (txLevel s.tx.word (s.tx.phase.toNat + 1)) } :=
  lineWrite_eq _ _

/-- Settles O39: the step is enabled, and what it writes is `nextPhase`, its level by cases. -/
theorem txStepDrivesTheNextPhase : Obligations.TxStepDrivesTheNextPhase := by
  intro s hb hk hp htime
  dsimp only
  have henabled : s.txStepEnabled = true := (txStepEnabled_iff s).2 ⟨hb, hk, hp, engineDue_of_phase hk htime⟩
  rw [exec_txStep henabled, nextPhase_eq, ← txLevel_eq]
  rfl

theorem exec_txEnd_request {s : State} (h : s.txEndEnabled = true) (hk : s.tx.kind = .request) :
    exec .txEnd s = .next (s.openEvent.lineWrite .idle).freeEngine.endRequest := by
  simp [exec, execTxEnd, whenEnabled_true _ h, hk]

theorem exec_txEnd_response {s : State} (h : s.txEndEnabled = true) (hk : s.tx.kind = .response) :
    exec .txEnd s = .next (((s.openEvent.lineWrite .idle).freeEngine.setStatus .ready).withRes 1) := by
  simp [exec, execTxEnd, whenEnabled_true _ h, hk]

/-- What the end of a request writes: the status and the time, and the result or, in a sequence, the time from which its
ticks are counted (R180 step 3, R181). -/
theorem endRequest_eq (s : State) : s.endRequest = { s with
    cs := { s.cs with status := .awaitingResponse, lastEdgeTimestamp := s.now }
    out := { s.out with res := if s.sqActive then s.out.res else some 1 }
    poll := { s.poll with after := if s.sqActive then s.env.clock else s.poll.after } } := by
  by_cases hsq : s.sqActive = true <;> simp [State.endRequest, State.stamp, State.pollAfter, State.withRes, hsq]

/-- Settles O40: the end is enabled, and with the line idle and the engine free it is `endRequest`, in a
sequence or not. -/
theorem requestEndsAwaiting : Obligations.RequestEndsAwaiting := by
  intro s hb hk hp htime
  rw [exec_txEnd_request (txEndEnabled_of_last hb (by simp [hk]) hp htime) hk, endRequest_eq, lineWrite_eq]
  cases hsq : s.sqActive <;> simp [State.freeEngine, State.now, State.period, hsq]

/-- Settles O41: the end is enabled, and with the line idle and the engine free it is `READY` with the result 1. -/
theorem responseEndsReady : Obligations.ResponseEndsReady := by
  intro s hb hk hp htime
  rw [exec_txEnd_response (txEndEnabled_of_last hb (by simp [hk]) hp htime) hk, lineWrite_eq]
  rfl

/-! ## A whole transmission -/

/-- With nothing of the environment to come, the step is the engine's event. -/
theorem step_engine {s : State} {w : Wire} {i : Instr} (hu : s.undisturbed) (hb : s.tx.busy = true)
    (hw : s.tx.nextWire = some w) (hd : decode ⟨w, 0⟩ = .ok i) :
    step s = exec i (s.advance ⟨.engine, s.engineTime⟩) :=
  step_of_decoded (nextEvent_engine hw hb hu) (by simpa [State.eventPacket, hw] using hd)

/-- A transmission that has just begun, undisturbed: the hypotheses of `Obligations.TransmissionIsTheWaveform`. -/
structure State.Begun (s : State) : Prop where
  busy        : s.tx.busy = true
  kind        : s.tx.kind ≠ .init
  phase       : s.tx.phase = 0
  framed      : isFramed s.tx.word = true
  lineOut     : s.lineOut = .active
  t0          : s.tx.t0 = s.env.clock % s.period
  period      : 500 < s.period
  uncoupled   : s.params.coupled = false
  undisturbed : s.undisturbed

/-- `t` is at the beginning of phase `p` of the transmission that began in `s`. -/
structure State.AtPhase (s : State) (p : Nat) (t : State) : Prop where
  tx          : t.tx = { s.tx with phase := BitVec.ofNat 7 p }
  lineOut     : t.lineOut = txLevel s.tx.word p
  clock       : t.env.clock = s.env.clock + 500 * p
  cs          : t.cs = s.cs
  params      : t.params = s.params
  undisturbed : t.undisturbed

section
variable {s t : State} {p : Nat}

theorem State.Begun.atPhase_zero (hs : s.Begun) : s.AtPhase 0 s where
  tx := by rw [← show s.tx.phase = BitVec.ofNat 7 0 from hs.phase]
  lineOut := by rw [hs.lineOut, txLevel_first hs.framed]
  clock := rfl
  cs := rfl
  params := rfl
  undisturbed := hs.undisturbed

theorem State.AtPhase.phase_toNat (h : s.AtPhase p t) (hp : p ≤ 67) : t.tx.phase.toNat = p := by
  rw [h.tx]
  exact Nat.mod_eq_of_lt (by omega)

theorem State.AtPhase.busy (h : s.AtPhase p t) (hs : s.Begun) : t.tx.busy = true := by rw [h.tx, hs.busy]

theorem State.AtPhase.kind (h : s.AtPhase p t) (hs : s.Begun) : t.tx.kind ≠ .init := by rw [h.tx]; exact hs.kind

/-- The engine's next event comes 500 µs after the beginning of the phase (R134, R135). -/
theorem State.AtPhase.engineTime (h : s.AtPhase p t) (hs : s.Begun) (hp : p ≤ 67) :
    t.engineTime = t.env.clock + 500 := by
  have hperiod : t.period = s.period := State.period_congr h.params
  refine State.engineTime_eq (by rw [hperiod]; exact hs.period) ?_
  have ht0 : t.tx.t0 = s.env.clock % s.period := by rw [h.tx, hs.t0]
  rw [Engine.dueAt_phase (h.kind hs), h.phase_toNat hp, ht0, h.clock, hperiod, Nat.mod_add_mod, Nat.mul_add_one,
    Nat.add_assoc]

/-- Without coupling (U17) the environment does not see the line driven. -/
theorem echo_uncoupled (l : Level) (h : s.params.coupled = false) : s.echo l = s.env := by
  simp [State.echo, h]

/-- A step before the last phase drives the next one (R134). -/
theorem State.AtPhase.run_next (h : s.AtPhase p t) (hs : s.Begun) (hp : p < 67) :
    ∃ u, step t = .next u ∧ s.AtPhase (p + 1) u := by
  have hphase := h.phase_toNat hp.le
  have hlt : t.tx.phase.toNat < 67 := hphase ▸ hp
  have hdue := engineDue_advance t
  have henabled : (t.advance ⟨.engine, t.engineTime⟩).txStepEnabled = true :=
    (txStepEnabled_iff _).2 (by simpa [h.busy hs, h.kind hs, hlt] using hdue)
  refine ⟨_, (step_engine h.undisturbed (h.busy hs) (Engine.nextWire_txStep (h.busy hs) (h.kind hs) hlt) rfl).trans
    (exec_txStep henabled), ?_⟩
  have hsucc : BitVec.ofNat 7 p + 1 = BitVec.ofNat 7 (p + 1) := (BitVec.ofNat_add ..).symm
  have hecho (l : Level) : (t.advance ⟨.engine, t.engineTime⟩).echo l = (t.advance ⟨.engine, t.engineTime⟩).env :=
    echo_uncoupled l (by rw [State.advance_params, h.params, hs.uncoupled])
  refine ⟨?_, ?_, ?_, ?_, ?_, ?_⟩
  · simpa [h.tx] using hsucc
  · rw [State.nextPhase_lineOut, State.openEvent_tx, State.advance_tx, hphase, h.tx]
  · simp [h.engineTime hs hp.le, h.clock, Nat.mul_add_one, Nat.add_assoc]
  · simp [h.cs]
  · simp [h.params]
  · rw [nextPhase_eq, echo_openEvent, hecho]
    exact h.undisturbed

/-- The first 67 steps drive the phases one after the other (R132, R134). -/
theorem State.Begun.run_phase (hs : s.Begun) (hp : p ≤ 67) :
    ∃ t, Host.Core.run Sys2Proof.core p s = .next t ∧ s.AtPhase p t := by
  induction p with
  | zero => exact ⟨s, rfl, hs.atPhase_zero⟩
  | succ p ih =>
    obtain ⟨t, hrun, ht⟩ := ih (by omega)
    obtain ⟨u, hstep, hu⟩ := ht.run_next hs hp
    exact ⟨u, run_last hrun hstep, hu⟩

/-- The end of a transmission, whoever owns the engine: the line idle, the engine free, at the same moment (R135). -/
theorem exec_txEnd_frees (h : s.txEndEnabled = true) :
    ∃ t, exec .txEnd s = .next t ∧ t.lineOut = .idle ∧ t.tx.busy = false ∧ t.env.clock = s.env.clock := by
  obtain ⟨-, hk, -, -⟩ := (txEndEnabled_iff s).1 h
  cases hkind : s.tx.kind with
  | request => exact ⟨_, exec_txEnd_request h hkind, by simp, by simp, by simp⟩
  | response => exact ⟨_, exec_txEnd_response h hkind, by simp, by simp, by simp⟩
  | init => exact absurd hkind hk

/-- The step after the last phase ends the transmission (R135). -/
theorem State.AtPhase.run_end (h : s.AtPhase 67 t) (hs : s.Begun) :
    ∃ u, step t = .next u ∧ u.lineOut = .idle ∧ u.tx.busy = false ∧ u.env.clock = t.env.clock + 500 := by
  have hlast := h.phase_toNat le_rfl
  have hdue := engineDue_advance t
  have henabled : (t.advance ⟨.engine, t.engineTime⟩).txEndEnabled = true :=
    (txEndEnabled_iff _).2 (by simpa [h.busy hs, h.kind hs, hlast] using hdue)
  obtain ⟨u, hexec, hline, hfree, hclock⟩ := exec_txEnd_frees henabled
  have hwire := Engine.nextWire_txEnd (h.busy hs) (h.kind hs) hlast
  refine ⟨u, (step_engine h.undisturbed (h.busy hs) hwire rfl).trans hexec, hline, hfree, ?_⟩
  rw [hclock, State.advance_clock, h.engineTime hs le_rfl]

end

/-- Settles O42: the run is at the beginning of phase `p` after `p` steps, by induction, and one step more ends it. -/
theorem transmissionIsTheWaveform : Obligations.TransmissionIsTheWaveform := by
  intro s hbusy hkind hphase hframed hline ht0 hperiod hcoupled hund
  have hs : s.Begun := ⟨hbusy, hkind, hphase, hframed, hline, ht0, hperiod, hcoupled, hund⟩
  constructor
  · intro p hp
    obtain ⟨t, hrun, ht⟩ := hs.run_phase hp
    exact ⟨t, hrun, ht.lineOut, ht.phase_toNat hp, ht.busy hs, ht.clock, ht.cs⟩
  · obtain ⟨t, hrun, ht⟩ := hs.run_phase le_rfl
    obtain ⟨u, hstep, hidle, hfree, hclock⟩ := ht.run_end hs
    refine ⟨u, run_last hrun hstep, hidle, hfree, ?_⟩
    rw [hclock, ht.clock, Nat.add_assoc]

/-! ## What leaves a transmission alone -/

/-- Settles O43, by what the instruction has done: what begins a transmission or a hold needs a ready port, and the rest
writes neither the engine nor the line. -/
theorem nothingCancelsATransmission : Obligations.NothingCancelsATransmission := by
  intro i s t hbusy h hreset hstep hend hinit
  have hbusyPort : s.cmdReady ≠ true := fun hready => by simp [((cmdReady_iff s).1 hready).1] at hbusy
  cases exec_performs h with
  | hold _ hready => exact absurd hready hbusyPort
  | requestAsync f hready => exact absurd hready hbusyPort
  | request f hready => exact absurd hready hbusyPort
  | response f hready => exact absurd hready hbusyPort
  | reset => exact absurd rfl hreset
  | phase => exact absurd rfl hstep
  | requestEnd => exact absurd rfl hend
  | responseEnd => exact absurd rfl hend
  | holdEnd => exact absurd rfl hinit
  | answer | arrive | tick | sequencerTick | edge => simp

/-! ## The edges of a transmission -/

/-- Settles O50: the wave is a level for each phase, and an idle line changes at phase 0 only to `ACTIVE`. -/
theorem frameEdgesAreItsTransitions : Obligations.FrameEdgesAreItsTransitions := by
  intro f t0
  have hedges := transitions_range' (txLevel (frameWord f)) 68 0 .idle t0
  rw [← List.range_eq_range'] at hedges
  refine hedges.trans (List.filterMap_congr fun p _ => ?_)
  dsimp only
  by_cases hp : p = 0
  · cases txLevel (frameWord f) p <;> simp [hp]
  · simp only [hp, if_false]

end Sys2Proof.Machine
end

section
/-! Proofs of the receive state machine statements (spec/42_receive_sm.md): what an edge writes (R151), its rows by the
status before it (R152 to R159), and the reception of a whole transmission (R161). -/

namespace Sys2Proof.Machine

/-! ## What an edge writes -/

theorem exec_edge (l : Level) (s : State) : exec (.edge l) s = .next ((s.openEvent.setLineIn l).receive l) := rfl

/-- Settles O49: the frame of the receive table, on the state in which the edge is received. -/
theorem edgeWritesFourFields : Obligations.EdgeWritesFourFields := by
  intro l s
  obtain ⟨htx, hline, hsq, hout, hpoll, henv, hparams, hrole, hlast, henable⟩ :=
    receive_frame l (s.openEvent.setLineIn l)
  exact ⟨_, exec_edge l s, hrole, hlast, henable, htx, hline, hsq, hout, hpoll, hparams, henv⟩

/-- The Channel State after an edge is all there is to say of it: the strobes are low, the input line has its level. -/
theorem exec_edge_of_receive_cs {l : Level} {s : State} {c : Channel}
    (h : ((s.openEvent.setLineIn l).receive l).cs = c) :
    exec (.edge l) s = .next { s with
      cs := c, out := { res := none, done := none }, env := { s.env with lineIn := l } } := by
  obtain ⟨htx, hline, hsq, hout, hpoll, henv, hparams, -, -, -⟩ := receive_frame l (s.openEvent.setLineIn l)
  rw [exec_edge]
  exact congrArg _ (State.ext h htx hline hsq hout hpoll henv hparams)

/-! ## The rows of the receive table -/

section
variable {s : State} {l : Level}

theorem receive_gated (he : s.cs.edgeEnable = false) : s.receive l = s := by
  simp [State.receive, he]

theorem receive_irrelevant (hs : s.cs.status = .uninitialized ∨ s.cs.status = .delay ∨ s.cs.status = .sending ∨
    s.cs.status = .responseReady ∨ s.cs.status = .responseInvalid) : s.receive l = s := by
  rcases hs with hs | hs | hs | hs | hs <;> simp [State.receive, hs]

/-- `AWAITING_RESPONSE`'s row, which a slave's start edge in `READY` shares (R153, C2). -/
theorem firstEdge_eq (l : Level) (s : State) :
    s.firstEdge l = s.stamp (if l = .active then .receivedStartBit else .responseInvalid) := by
  cases l <;> rfl

theorem receive_ready_cs (he : s.cs.edgeEnable = true) (hs : s.cs.status = .ready) :
    (s.receive l).cs =
      if s.cs.role = .slave ∧ l = .active then { s.cs with status := .receivedStartBit, lastEdgeTimestamp := s.now }
      else s.cs := by
  by_cases h : s.cs.role = .slave ∧ l = .active
  · simp [State.receive, he, hs, firstEdge_eq, h]
  · simp [State.receive, he, hs, h]

theorem receive_awaitingResponse_cs (he : s.cs.edgeEnable = true) (hs : s.cs.status = .awaitingResponse) :
    (s.receive l).cs = { s.cs with
      status := if l = .active then .receivedStartBit else .responseInvalid
      lastEdgeTimestamp := s.now } := by
  simp [State.receive, he, hs, firstEdge_eq]

theorem receive_receivedStartBit_cs (he : s.cs.edgeEnable = true) (hs : s.cs.status = .receivedStartBit) :
    (s.receive l).cs =
      if s.elapsed < 750 ∧ l = .idle then
        { s.cs with status := .receiving, receivedBitCount := 0, lastEdgeTimestamp := s.now }
      else { s.cs with status := .responseInvalid, lastEdgeTimestamp := s.now } := by
  by_cases h : s.elapsed < 750 ∧ l = .idle <;>
    simp [State.receive, he, hs, State.confirmStart, Config.tMid, h]

/-- `RECEIVING`'s rows for a count that is ever written: the filter, a data bit, the stop bit (R156, R157, R158). -/
theorem receive_receiving_cs (he : s.cs.edgeEnable = true) (hs : s.cs.status = .receiving)
    (hcount : s.cs.receivedBitCount.toNat ≤ 32) :
    (s.receive l).cs =
      if s.elapsed ≤ 750 then s.cs
      else if s.cs.receivedBitCount.toNat < 32 then
        { s.cs with
          pendingFrame := shiftIn s.cs.pendingFrame l
          receivedBitCount := s.cs.receivedBitCount + 1
          lastEdgeTimestamp := s.now }
      else { s.cs with status := .responseReady, lastEdgeTimestamp := s.now } := by
  by_cases hfilter : s.elapsed ≤ 750
  · simp [State.receive, he, hs, State.sample, Config.tMid, hfilter]
  by_cases hdata : s.cs.receivedBitCount.toNat < 32
  · simp [State.receive, he, hs, State.sample, Config.tMid, Config.nBits, hfilter, hdata]
  · have hstop : s.cs.receivedBitCount.toNat = 32 := by omega
    simp [State.receive, he, hs, State.sample, Config.tMid, Config.nBits, hfilter, hstop]

end

/-! ## The statements of one edge -/

/-- Settles O44, the gate and the five statuses. -/
theorem edgeIgnoredElsewhere : Obligations.EdgeIgnoredElsewhere := by
  intro l s h
  have hkept : (s.openEvent.setLineIn l).receive l = s.openEvent.setLineIn l := by
    rcases h with hgate | hstatus
    · exact receive_gated hgate
    · exact receive_irrelevant hstatus
  exact exec_edge_of_receive_cs (by rw [hkept]; rfl)

/-- Settles O45, by the row of `READY`. -/
theorem edgeInReadyStartsASlave : Obligations.EdgeInReadyStartsASlave := fun l s he hs =>
  exec_edge_of_receive_cs (receive_ready_cs (s := s.openEvent.setLineIn l) he hs)

/-- Settles O46, by the row of `AWAITING_RESPONSE`. -/
theorem firstEdgeDecidesTheStart : Obligations.FirstEdgeDecidesTheStart := fun l s he hs =>
  exec_edge_of_receive_cs (receive_awaitingResponse_cs (s := s.openEvent.setLineIn l) he hs)

/-- Settles O47, by the row of `RECEIVED_START_BIT`. -/
theorem startBitConfirmedUnder750 : Obligations.StartBitConfirmedUnder750 := fun l s he hs =>
  exec_edge_of_receive_cs (receive_receivedStartBit_cs (s := s.openEvent.setLineIn l) he hs)

theorem bitCount_succ (n : BitVec 6) : BitVec.ofNat 6 (n.toNat + 1) = n + 1 := by
  rw [BitVec.ofNat_add, BitVec.ofNat_toNat, BitVec.setWidth_eq]; rfl

/-- Settles O48, by the rows of `RECEIVING`, the shift and the count as numbers. -/
theorem receivingSamplesAfter750 : Obligations.ReceivingSamplesAfter750 := by
  intro l s he hs hcount
  dsimp only
  rw [← shiftIn_eq, bitCount_succ]
  exact exec_edge_of_receive_cs (receive_receiving_cs (s := s.openEvent.setLineIn l) he hs hcount)

/-! ## The reception of a transmission -/

/-- Settles O53: the start symbol, then the 32 bits, then the stop symbol, each from the state the one before left. -/
theorem receptionReproducesTheFrame : Obligations.ReceptionReproducesTheFrame := by
  intro f t0 s he hs hperiod
  obtain ⟨a, hfeedStart, hacs, hatx, haline, hasq, haparams⟩ := feed_start (t0 := t0)
    (rest := (List.range 32).flatMap (fun k => symbolWave (f.getLsbD (31 - k))) ++ symbolWave true) he hs hperiod
  have hap : a.period = s.period := State.period_congr haparams
  obtain ⟨b, l, hfeedBits, hbcs, hbits, hbtx, hbline, hbsq, hbparams⟩ := feed_bits f (le_refl 32) (s := a)
    (T := t0 + 500) (l := .idle) (rest := symbolWave true) (by rw [hacs]; exact he) (by rw [hacs]) (by rw [hacs])
    (by rw [hap]; exact hperiod) (by rw [hacs, hap])
  have hbp : b.period = s.period := (State.period_congr hbparams).trans hap
  have hframe : b.cs.pendingFrame = f := BitVec.eq_of_getLsbD_eq fun j hj => by simpa using hbits j hj
  obtain ⟨c, hfeedStop, hccs, hctx, hcline, hcsq, -⟩ := feed_stop (s := b) (T := t0 + 500 + 1000 * 32)
    (E := t0 + 33500) (l := l) (by omega) (by rw [hbcs, hacs]; exact he) (by rw [hbcs, hacs]) (by rw [hbcs]; rfl)
    (by rw [hbp]; exact hperiod) (by rw [hbcs, hbp, hap])
  have hfeed : feedEdges s (frameEdges f t0) = .next c := by
    rw [frameEdges, txWave_frame, List.append_assoc, hfeedStart]
    exact hfeedBits.trans hfeedStop
  refine ⟨c, hfeed, ?_, by rw [hctx, hbtx, hatx], by rw [hcline, hbline, haline], by rw [hcsq, hbsq, hasq]⟩
  rw [hccs, hbcs, hframe, hacs, hbp]
  rfl

end Sys2Proof.Machine
end

section
/-! Proofs of the channel controller statements (spec/43_channel_controller.md): the first events of the commands (R171,
R180 to R182), the hold's end (R171 step 3), `TICK` as HOST's and as the sequencer's (R172 to R181), the queries (R183,
R184), the status graph (R185), and the port that is not ready (R186). -/

namespace Sys2Proof.Machine

/-! ## The cold-start hold -/

theorem initHold_eq (s : State) : s.initHold = { s with
    tx := { s.tx with busy := true, kind := .init, t0 := s.now }
    lineOut := .idle
    env := s.echo .idle } := by
  rw [State.initHold, lineWrite_eq]

/-- Settles O24: both events are `initHold` at a ready port. -/
theorem initializeStartsTheHold : Obligations.InitializeStartsTheHold := by
  rintro i s hi hready
  have key : s.accept State.initHold = .next s.openEvent.initHold := accept_ready _ hready
  rw [initHold_eq] at key
  rcases hi with rfl | rfl <;> exact key

/-- At the end of the hold `INIT_END` is enabled (R137). -/
theorem initEndEnabled_of_held {s : State} (hb : s.tx.busy = true) (hk : s.tx.kind = .init)
    (htime : s.env.clock % 2 ^ s.params.tsWidth = (s.tx.t0 + 1000000) % 2 ^ s.params.tsWidth) :
    s.initEndEnabled = true := by
  have hdue : s.engineDue = true := by
    simpa [State.engineDue, State.now, State.period, Engine.dueAt, hk, Config.tCold] using htime
  exact (initEndEnabled_iff s).2 ⟨hb, hk, hdue⟩

/-- Settles O25: the event is enabled, and what it does is the statement. -/
theorem holdEndsReady : Obligations.HoldEndsReady := fun s hb hk htime =>
  (whenEnabled_true _ (initEndEnabled_of_held hb hk htime) : execInitEnd s = _)

/-! ## TICK as a command -/

/-- A `TICK` command at a ready port is its effect with the strobes low, then the result 0 (R172). -/
theorem exec_tick_of_effect {s u : State} (hready : s.cmdReady = true) (h : s.openEvent.tickEffect = u) :
    exec .tick s = .next (u.withRes 0) :=
  h ▸ execTick_ready hready

/-- Settles O28, by the first match of R172's chain. -/
theorem tickInReadyDoesNothing : Obligations.TickInReadyDoesNothing := fun s hready hst =>
  exec_tick_of_effect hready (tickEffect_ready (s := s.openEvent) hst)

/-- Settles O29, by the second match of R172's chain. -/
theorem tickTimesOut : Obligations.TickTimesOut := fun s hready hst hel =>
  exec_tick_of_effect hready (tickEffect_timeout (s := s.openEvent) hst hel)

/-- Settles O30, by the match on `RESPONSE_INVALID`. -/
theorem tickReportsInvalidStart : Obligations.TickReportsInvalidStart := fun s hready hst hel =>
  exec_tick_of_effect hready (tickEffect_invalid (s := s.openEvent) hst hel)

/-- The types of a request are those up to 2 (R112). -/
theorem validRequest_iff (f : Frame) : validRequest f = true ↔ f.toNat / 2 ^ 28 % 8 ≤ 2 := by
  simp [validRequest, msgTypeField_eq_iff]
  omega

/-- The types of a response are those from 4 (R113). -/
theorem validResponse_iff (f : Frame) : validResponse f = true ↔ 4 ≤ f.toNat / 2 ^ 28 % 8 := by
  simp [validResponse, msgTypeField_eq_iff]
  omega

/-- Responses are wanted where the map is `DIRECTIONAL` and the role `MASTER`, or neither is (R177). -/
theorem rxValidator_eq (m : RxValidatorMap) (r : Role) (f : Frame) :
    rxValidator m r f = if (m == .directional) == (r == .master) then validResponse f else validRequest f := by
  cases m <;> cases r <;> rfl

theorem rxValidator_iff (m : RxValidatorMap) (r : Role) (f : Frame) : rxValidator m r f = true ↔
    (((m == .directional) == (r == .master)) = true ∧ 4 ≤ f.toNat / 2 ^ 28 % 8) ∨
    (((m == .directional) == (r == .master)) = false ∧ f.toNat / 2 ^ 28 % 8 ≤ 2) := by
  rw [rxValidator_eq]
  cases (m == .directional) == (r == .master) <;> simp [validRequest_iff, validResponse_iff]

/-- A completion other than `TIMEOUT` begins the quiet period (R200, R213). -/
theorem complete_delay {r : RespStatus} (h : r ≠ .timeout) (s : State) : s.complete r = { s with
    cs := { s.cs with status := .delay, lastResponseStatus := r }
    out := { s.out with done := some { frame := s.cs.pendingFrame, status := r } } } := by
  simp [State.complete, h]

/-- Settles O31: the class is `classify`, its parity the odd count and its validator a range of types. -/
theorem tickClassifiesTheFrame : Obligations.TickClassifiesTheFrame := by
  intro s hready hst hel f t wantsResponse c
  have hc : classify s.params.rxMap s.cs.role f = c := by
    simp only [classify, parity_eq, rxValidator_iff, decide_eq_true_eq]
    rfl
  have hne : c ≠ .timeout := hc ▸ (classify_ne _ _ _).1
  have heffect : s.openEvent.tickEffect = s.openEvent.complete c :=
    hc ▸ tickEffect_received (s := s.openEvent) hst hel
  exact exec_tick_of_effect hready (heffect.trans (complete_delay hne _))

/-- Settles O32, by the match on `DELAY`, over and not yet over. -/
theorem tickEndsTheQuietPeriod : Obligations.TickEndsTheQuietPeriod := by
  intro s hready hst hel
  have heffect := tickEffect_delay (s := s.openEvent) hst hel
  by_cases hquiet : 100000 < s.elapsed
  · rw [if_pos hquiet]
    exact exec_tick_of_effect hready (heffect.trans (if_pos hquiet))
  · rw [if_neg hquiet, ← hst]
    exact exec_tick_of_effect hready (heffect.trans (if_neg hquiet))

/-- The statuses without an action of their own (R179). -/
theorem tickEffect_elsewhere {s : State} (he : s.elapsed ≤ 1000000)
    (h : s.cs.status = .uninitialized ∨ s.cs.status = .sending ∨ s.cs.status = .awaitingResponse ∨
      s.cs.status = .receivedStartBit ∨ s.cs.status = .receiving) : s.tickEffect = s := by
  rcases h with h | h | h | h | h <;> simp [State.tickEffect, h, Config.tTimeout, Nat.not_lt.2 he]

/-- Settles O33, by the statuses that R172's chain leaves alone. -/
theorem tickElsewhereDoesNothing : Obligations.TickElsewhereDoesNothing := fun s hready hel hst =>
  exec_tick_of_effect hready (tickEffect_elsewhere (s := s.openEvent) hel hst)

/-! ## TICK of the sequencer -/

/-- While a sequence goes on, it ends in `READY` with the pending frame as its result (R181 step 4). -/
theorem endSequence_eq {s : State} (hsq : s.sqActive = true) : s.endSequence = { s with
    sqActive := decide (s.cs.status ≠ .ready)
    out := { s.out with res := if s.cs.status = .ready then some s.cs.pendingFrame else s.out.res } } := by
  by_cases h : s.cs.status = .ready
  · simp [State.endSequence, State.withRes, h]
  · simp [State.endSequence, h, ← hsq]

theorem exec_tick_sequencer {s : State} (h : s.sequencerEnabled = true) :
    exec .tick s = .next s.openEvent.tickEffect.pollNext.endSequence :=
  if_pos h

/-- Settles O34: the effect of a tick is the same with the sequencer off, where the port is ready. -/
theorem sequencerTickIsATick : Obligations.SequencerTickIsATick := by
  intro s u henabled hu
  obtain ⟨hsq, hfree, -⟩ := (sequencerEnabled_iff s).1 henabled
  have hready : State.cmdReady { s with sqActive := false } = true := (cmdReady_iff _).2 ⟨hfree, rfl⟩
  have heffect := exec_tick_of_effect hready (tickEffect_sqActive s.openEvent false)
  cases hu.symm.trans heffect
  obtain ⟨-, -, -, hpoll, -, -, hres, -⟩ := tickEffect_frame s.openEvent
  rw [exec_tick_sequencer henabled, endSequence_eq (by simpa using hsq)]
  simp [State.pollNext, State.withRes, hpoll, hres]

/-! ## Send operations and queries -/

/-- A transmission begins with its start bit, `ACTIVE` (R133). -/
theorem txBegin_eq (f : Frame) (k : TxKind) (s : State) : s.txBegin f k = { s with
    tx := { busy := true, kind := k, word := frameWord f, phase := 0, t0 := s.now }
    lineOut := .active
    env := s.echo .active } := by
  rw [State.txBegin, lineWrite_eq, txLevel_start]
  rfl

theorem beginRequest_eq (f : Frame) (s : State) : s.beginRequest f = { s with
    cs := { s.cs with status := .sending, pendingFrame := 0, lastResponseStatus := .none }
    tx := { busy := true, kind := .request, word := frameWord f, phase := 0, t0 := s.now }
    lineOut := .active
    env := s.echo .active } := by
  rw [State.beginRequest, txBegin_eq]
  rfl

/-- Both requests are accepted in `READY` (R180, R181 step 1). -/
theorem exec_sendRequest_accepted (f : Frame) {s : State} (hready : s.cmdReady = true) (hst : s.cs.status = .ready) :
    exec (.sendRequestAsync f) s = .next (s.openEvent.beginRequest f) ∧
    exec (.sendRequest f) s = .next { s.openEvent.beginRequest f with sqActive := true } := by
  simp [exec, execSendRequestAsync, execSendRequest, accept_ready _ hready, hst]

/-- Settles O35: in `READY` both commands are `beginRequest`. -/
theorem acceptedRequestStartsSending : Obligations.AcceptedRequestStartsSending := by
  intro f s hready hst begun
  have hbegun : s.openEvent.beginRequest f = begun := beginRequest_eq f s.openEvent
  rw [← hbegun]
  exact exec_sendRequest_accepted f hready hst

/-- Settles O37: the command is `txBegin` at a ready port. -/
theorem responseSentFromAnyStatus : Obligations.ResponseSentFromAnyStatus := fun f s hready =>
  (accept_ready _ hready).trans (congrArg _ (txBegin_eq f .response s.openEvent))

/-- Settles O38: the queries answer the status and the code of the last response status (R77). -/
theorem queriesAnswerTheRegisters : Obligations.QueriesAnswerTheRegisters := by
  intro a b s hready
  refine ⟨by simp [decodeCommand], by simp [decodeCommand], answer_value hready ?_, answer_value hready ?_⟩
  · simp [boolWord]
  · cases s.cs.lastResponseStatus <;> rfl

/-! ## The port that is not ready -/

@[simp] theorem State.txBegin_hostScript (f : Frame) (k : TxKind) (s : State) :
    (s.txBegin f k).env.hostScript = s.env.hostScript := by
  simp [State.txBegin]
@[simp] theorem State.beginRequest_hostScript (f : Frame) (s : State) :
    (s.beginRequest f).env.hostScript = s.env.hostScript := by
  simp [State.beginRequest]
@[simp] theorem State.initHold_hostScript (s : State) : s.initHold.env.hostScript = s.env.hostScript := by
  simp [State.initHold]
@[simp] theorem State.nextPhase_hostScript (s : State) : s.nextPhase.env.hostScript = s.env.hostScript := by
  simp [State.nextPhase]
@[simp] theorem State.toReset_hostScript (s : State) : s.toReset.env.hostScript = s.env.hostScript := by
  simp [State.toReset]

/-- No instruction takes a command from HOST: only taking the event does. -/
theorem exec_hostScript {i : Instr} {s t : State} (h : exec i s = .next t) : t.env.hostScript = s.env.hostScript := by
  cases exec_performs h with
  | _ => simp

theorem advance_hostScript {c : Candidate} (h : c.source ≠ .host) (s : State) :
    (s.advance c).env.hostScript = s.env.hostScript := by
  obtain ⟨source, time⟩ := c
  cases source with
  | host => exact absurd rfl h
  | _ => rfl

/-- HOST has an event only at a ready port (R186). -/
theorem nextEvent_ne_host {s : State} {c : Candidate} (hbusy : s.cmdReady = false) (h : s.nextEvent = some c) :
    c.source ≠ .host := by
  intro hhost
  rcases mem_candidates (earliest_mem h) with
    ⟨_, -, rfl⟩ | ⟨_, -, rfl⟩ | ⟨_, -, rfl⟩ | ⟨-, -, rfl⟩ | ⟨_, hready, -⟩
  · cases hhost
  · cases hhost
  · cases hhost
  · cases hhost
  · simp [hbusy] at hready

/-- Settles O11: HOST has no event, and a command there is refused by its acceptance. -/
theorem busyPortAcceptsNothing : Obligations.BusyPortAcceptsNothing := by
  intro s hbusy
  refine ⟨fun t h => ?_, fun i hi => ?_, fun i hi hseq => ?_⟩
  · rcases step_next h with ⟨-, rfl⟩ | ⟨c, i, hn, -, he⟩
    · rfl
    · rw [exec_hostScript he, advance_hostScript (nextEvent_ne_host hbusy hn)]
  · obtain ⟨v, hv⟩ := exec_codec hi s
    rw [hv, answer_busy v hbusy]
  · obtain ⟨run, hrun⟩ := exec_controller_accept hi hseq
    rw [hrun, accept_busy run hbusy]

/-! ## The status graph -/

/-- The rows of R185 that a tick takes. -/
theorem tickEffect_status_change {s : State} (h : s.tickEffect.cs.status ≠ s.cs.status) :
    ((s.cs.status = .responseReady ∨ s.cs.status = .responseInvalid) ∧ s.elapsed ≤ 1000000 ∧
      s.tickEffect.cs.status = .delay) ∨
    (s.cs.status = .delay ∧ 100000 < s.elapsed ∧ s.elapsed ≤ 1000000 ∧ s.tickEffect.cs.status = .ready) ∨
    (s.cs.status ≠ .ready ∧ 1000000 < s.elapsed ∧ s.tickEffect.cs.status = .ready) := by
  rcases tickEffect_cases s with he | ⟨hst, hel, he⟩ | ⟨hst, hel, he⟩ | ⟨hst, hel, he⟩ | ⟨hst, hquiet, hel, he⟩ <;>
    rw [he] at h ⊢
  · contradiction
  · exact .inr (.inr ⟨hst, hel, rfl⟩)
  · exact .inl ⟨.inr hst, hel, rfl⟩
  · exact .inl ⟨.inl hst, hel, by rw [complete_delay (classify_ne _ _ _).1]⟩
  · exact .inr (.inl ⟨hst, hquiet, hel, rfl⟩)

/-- The rows of R185 that an edge takes. -/
theorem receive_status_change {l : Level} {s : State} (h : (s.receive l).cs.status ≠ s.cs.status) :
    (l = .active ∧ s.cs.status = .ready ∧ s.cs.role = .slave ∧ (s.receive l).cs.status = .receivedStartBit) ∨
    (l = .active ∧ s.cs.status = .awaitingResponse ∧ (s.receive l).cs.status = .receivedStartBit) ∨
    (l = .idle ∧ s.cs.status = .awaitingResponse ∧ (s.receive l).cs.status = .responseInvalid) ∨
    (l = .idle ∧ s.cs.status = .receivedStartBit ∧ s.elapsed < 750 ∧ (s.receive l).cs.status = .receiving) ∨
    (¬(s.elapsed < 750 ∧ l = .idle) ∧ s.cs.status = .receivedStartBit ∧
      (s.receive l).cs.status = .responseInvalid) ∨
    (s.cs.status = .receiving ∧ 750 < s.elapsed ∧ s.cs.receivedBitCount = 32 ∧
      (s.receive l).cs.status = .responseReady) := by
  rcases receive_cases l s with hr | ⟨-, hst | ⟨hst, hrole⟩, hl, hr⟩ | ⟨-, hst, hl, hr⟩ | ⟨-, hst, hel, hl, hr⟩ |
    ⟨-, hst, hlate, hr⟩ | ⟨-, hst, -, -, hr⟩ | ⟨-, hst, hel, hcount, hr⟩ <;> rw [hr] at h ⊢
  · contradiction
  · exact .inr (.inl ⟨hl, hst, rfl⟩)
  · exact .inl ⟨hl, hst, hrole, rfl⟩
  · exact .inr (.inr (.inl ⟨hl, hst, rfl⟩))
  · exact .inr (.inr (.inr (.inl ⟨hl, hst, hel, rfl⟩)))
  · exact .inr (.inr (.inr (.inr (.inl ⟨hlate, hst, rfl⟩))))
  · exact absurd hst.symm h
  · exact .inr (.inr (.inr (.inr (.inr ⟨hst, hel, BitVec.eq_of_toNat_eq hcount, rfl⟩))))

/-- Settles O57, by what the instruction has done: the operations that move the status are a tick, an edge, `RESET`, and
the beginning and the ends of the commands. -/
theorem statusChangesAreTheGraph : Obligations.StatusChangesAreTheGraph := by
  intro i s t hs h hne a b el
  cases exec_performs h with
  | reset => exact .inl ⟨rfl, rfl⟩
  | holdEnd => exact .inr (.inl ⟨rfl, rfl⟩)
  | requestAsync f _ hst => simp [a, b, hst]
  | request f _ hst => simp [a, b, hst]
  | requestEnd henabled hkind =>
    obtain ⟨hbusy, -⟩ := (txEndEnabled_iff s).1 henabled
    have hsending : s.cs.status = .sending := hs.sendingIffRequest.2 ⟨hbusy, hkind⟩
    simp [a, b, hsending, hkind]
  | responseEnd _ hkind => simp [b, hkind]
  | edge l => simpa [a, b, el] using receive_status_change (s := s.openEvent.setLineIn l) hne
  | tick => simpa [a, b, el] using tickEffect_status_change (s := s.openEvent) hne
  | sequencerTick => simpa [a, b, el] using tickEffect_status_change (s := s.openEvent) (by simpa using hne)
  | _ => exact absurd (by simp) hne

end Sys2Proof.Machine
end

section
/-! Proofs of the outcome statements (spec/60_exceptions.md): a completion is delivered by `TICK` only (R206, R213), and
the rejection of a request is not an outcome (R207). -/

namespace Sys2Proof.Machine

/-! ## The completion strobe -/

@[simp] theorem State.beginRequest_out (f : Frame) (s : State) : (s.beginRequest f).out = s.out := by
  simp [State.beginRequest]
@[simp] theorem State.endRequest_done (s : State) : s.endRequest.out.done = s.out.done := by
  unfold State.endRequest; dsimp only; split <;> simp
@[simp] theorem State.endSequence_done (s : State) : s.endSequence.out.done = s.out.done := by
  unfold State.endSequence; split <;> simp
@[simp] theorem State.receive_out (l : Level) (s : State) : (s.receive l).out = s.out := by
  simp [receive_frame]

/-- A tick leaves the completion strobe alone or is `Complete` with a class other than `NONE` (R206, R213). -/
theorem tickEffect_done_or_complete (s : State) :
    s.tickEffect.out.done = s.out.done ∨ ∃ r, r ≠ .none ∧ s.tickEffect = s.complete r := by
  rcases tickEffect_cases s with he | ⟨-, -, he⟩ | ⟨-, -, he⟩ | ⟨-, -, he⟩ | ⟨-, -, -, he⟩
  · exact .inl (by rw [he])
  · exact .inr ⟨.timeout, nofun, he⟩
  · exact .inr ⟨.invalidStart, nofun, he⟩
  · exact .inr ⟨_, (classify_ne _ _ _).2.1, he⟩
  · exact .inl (by rw [he, State.setStatus_out])

/-- What a tick delivers, and what it leaves in the Channel State with it (R213). -/
theorem tickEffect_delivers {s : State} {c : Completion} (hlow : s.out.done = none)
    (h : s.tickEffect.out.done = some c) :
    c.frame = s.cs.pendingFrame ∧ s.tickEffect.cs.pendingFrame = s.cs.pendingFrame ∧
    s.tickEffect.cs.lastResponseStatus = c.status ∧ c.status ≠ .none ∧
    s.tickEffect.cs.status = if c.status = .timeout then .ready else .delay := by
  rcases tickEffect_done_or_complete s with hd | ⟨r, hr, he⟩
  · simp [hd, hlow] at h
  · rw [he] at h ⊢
    obtain rfl := Option.some.inj h
    simp [hr]

/-- Settles O54, by what the instruction has done: a tick, HOST's or the sequencer's, delivers by its effect, and every
other event leaves the completion strobe as it opened, low. -/
theorem onlyTickDelivers : Obligations.OnlyTickDelivers := by
  intro i s t c h hc
  cases exec_performs h with
  | tick => exact ⟨rfl, tickEffect_delivers (s := s.openEvent) rfl hc⟩
  | sequencerTick => simpa using tickEffect_delivers (s := s.openEvent) rfl (by simpa using hc)
  | _ => simp at hc

/-! ## The rejected request -/

/-- Both requests outside `READY` are commands that answer 0 (R180, R181 step 1). -/
theorem exec_sendRequest_rejected (f : Frame) {s : State} (hready : s.cmdReady = true) (hst : s.cs.status ≠ .ready) :
    exec (.sendRequestAsync f) s = s.answer 0 ∧ exec (.sendRequest f) s = s.answer 0 := by
  simp [exec, execSendRequestAsync, execSendRequest, State.answer, accept_ready _ hready, hst]

/-- Settles O36: an answer writes the result port and nothing else. -/
theorem requestRejectedUnlessReady : Obligations.RequestRejectedUnlessReady := by
  intro f s hready hst
  rw [← answer_ready 0 hready]
  exact exec_sendRequest_rejected f hready hst

end Sys2Proof.Machine
end

section
/-! Proof of the reset statement (spec/70_reset_and_hazards.md): every register after `RESET` (R230, R36). -/

namespace Sys2Proof.Machine

/-- Abandoning a transmission may be a transition of the output line: of the environment it changes the echo only. -/
theorem State.toReset_env (s : State) : s.toReset.env = s.echo .idle := by
  rw [State.toReset, lineWrite_eq]

theorem exec_reset (s : State) : exec .reset s = .next s.toReset := rfl

/-- Settles O26: `RESET` is enabled everywhere and is `toReset`, its registers one by one. -/
theorem resetPutsEveryRegister : Obligations.ResetPutsEveryRegister := fun s =>
  ⟨s.toReset, exec_reset s, s.toReset_cs, congrArg Engine.busy s.toReset_tx, s.toReset_sqActive, s.toReset_lineOut,
    s.toReset_out, s.toReset_env, s.toReset_params, s.toReset_poll⟩

end Sys2Proof.Machine
end

section
/-! Proofs of the codings' agreement (spec/30_encoding.md): the encoding read back (R71, R73, R74, R79, R80), what the
decoder answers is well-formed, and off the command port it loses nothing (R70 to R74, R82). -/

namespace Sys2Proof.Machine

/-! ## The frame rows by message type (R71) -/

/-- The row of the table that a frame of a message type is. -/
def frameRow : MsgType → Frame → Instr
  | .readData => .frameReadData
  | .writeData => .frameWriteData
  | .invalidData => .frameInvalidData
  | .reserved => .frameReserved
  | .readAck => .frameReadAck
  | .writeAck => .frameWriteAck
  | .dataInvalid => .frameDataInvalid
  | .unknownDataId => .frameUnknownDataId

theorem decodeFrame_eq_frameRow (f : Frame) : decodeFrame f = frameRow (fieldType f) f := by
  unfold decodeFrame
  cases fieldType f <;> rfl

theorem encode_frameRow (t : MsgType) (f : Frame) : encode (frameRow t f) = framePacket f := by cases t <;> rfl

theorem wellFormed_frameRow (t : MsgType) (f : Frame) : (frameRow t f).wellFormed = hasTypeCode f t.code := by
  cases t <;> rfl

/-- A frame has the type code of its own type field. -/
theorem hasTypeCode_fieldType (f : Frame) : hasTypeCode f (fieldType f).code = true := by
  rw [fieldType, code_ofCode, hasTypeCode, beq_self_eq_true]

theorem decode_encode_frameRow (t : MsgType) {f : Frame} (h : (frameRow t f).wellFormed = true) :
    decode (encode (frameRow t f)) = .ok (frameRow t f) := by
  rw [wellFormed_frameRow] at h
  rw [encode_frameRow, decode_framePacket, decodeFrame_eq_frameRow, decodeFrame_of_type h]

/-! ## Decoding an encoding, by family -/

theorem decode_encode_codec {i : Instr} (h : isCodec i = true) : decode (encode i) = .ok i := by
  cases i with
  | parity | buildRequest | buildResponse | getMessageType | getDataId | getUInt16 | getInt16 | getFloat | getUbUInt8
  | getLbUInt8 | temperatureToData | isValidRequest | isValidResponse | modifyMsgData =>
    simp [encode, decode_cmdPacket, decodeCommand]
  | _ => exact absurd h Bool.false_ne_true

theorem decode_encode_controller {i : Instr} (h : isController i = true) : decode (encode i) = .ok i := by
  cases i with
  | initChannel | tick | sendRequestAsync | sendRequest | sendResponse | isReady | getLastResponseStatus =>
    simp [encode, decode_cmdPacket, decodeCommand]
  | _ => exact absurd h Bool.false_ne_true

theorem decode_encode_reserved {i : Instr} {k : BitVec 5} (h : reservedCodeOf i = some k) :
    decode (encode i) = .ok i := by
  cases i with
  | reservedCmd0E | reservedCmd0F | reservedCmd17 | reservedCmd18 | reservedCmd19 | reservedCmd1A | reservedCmd1B
  | reservedCmd1C | reservedCmd1D | reservedCmd1E | reservedCmd1F =>
    simp [encode, decode_cmdPacket, decodeCommand]
  | _ => cases h

/-- A transmission word with its start and stop symbols comes back off its wire (R74). -/
theorem decode_encode_txWord {w : TxWord} (h : isFramed w = true) : decode (encode (.txWord w)) = .ok (.txWord w) := by
  rw [decode_fits (setWidth_lt w)]
  simp only [encode, setWidth_roundTrip (by decide : 34 ≤ 53), decodeTxWord, if_pos h]

theorem decode_encode_lineFormat {i : Instr} (h : isLineFormat i = true) (hwf : i.wellFormed = true) :
    decode (encode i) = .ok i := by
  cases i with
  | frameReadData => exact decode_encode_frameRow .readData hwf
  | frameWriteData => exact decode_encode_frameRow .writeData hwf
  | frameInvalidData => exact decode_encode_frameRow .invalidData hwf
  | frameReserved => exact decode_encode_frameRow .reserved hwf
  | frameReadAck => exact decode_encode_frameRow .readAck hwf
  | frameWriteAck => exact decode_encode_frameRow .writeAck hwf
  | frameDataInvalid => exact decode_encode_frameRow .dataInvalid hwf
  | frameUnknownDataId => exact decode_encode_frameRow .unknownDataId hwf
  | symbolBit1 | symbolBit0 => rfl
  | txWord => exact decode_encode_txWord hwf
  | _ => exact absurd h Bool.false_ne_true

theorem decode_encode_signal {i : Instr} (h : isSignal i = true) : decode (encode i) = .ok i := by
  cases i with
  | edge l => exact decode_edgePacket l
  | reset | txStep | txEnd | initBegin | initEnd => rfl
  | _ => exact absurd h Bool.false_ne_true

/-- Settles O2, by the five families of rows; only the formats of the line need that they are well-formed. -/
theorem decodeOfEncode : Obligations.DecodeOfEncode := by
  intro i hwf
  rcases instr_family i with h | h | ⟨_, h⟩ | h | h
  · exact decode_encode_codec h
  · exact decode_encode_controller h
  · exact decode_encode_reserved h
  · exact decode_encode_lineFormat h hwf
  · exact decode_encode_signal h

/-! ## What the decoder answers -/

theorem decodeCommand_wellFormed (w : CmdWord) : (decodeCommand w).wellFormed = true := by
  unfold decodeCommand
  dsimp only
  split <;> rfl

theorem decodeFrame_wellFormed (f : Frame) : (decodeFrame f).wellFormed = true := by
  rw [decodeFrame_eq_frameRow, wellFormed_frameRow, hasTypeCode_fieldType]

/-- Only the two words of R73 decode to a symbol. -/
theorem decodeSymbol_ok_cases {v : BitVec 2} {i : Instr} (h : decodeSymbol v = .ok i) :
    (v = 1 ∧ i = .symbolBit0) ∨ (v = 2 ∧ i = .symbolBit1) := by
  unfold decodeSymbol at h
  split at h <;> cases h
  next hv => exact .inl ⟨BitVec.eq_of_toNat_eq hv, rfl⟩
  next hv => exact .inr ⟨BitVec.eq_of_toNat_eq hv, rfl⟩

/-- Only a word with its start and stop symbols decodes, to itself (R74). -/
theorem decodeTxWord_ok {w : TxWord} {i : Instr} (h : decodeTxWord w = .ok i) :
    isFramed w = true ∧ i = .txWord w := by
  unfold decodeTxWord at h
  split at h <;> cases h
  next hw => exact ⟨hw, rfl⟩

/-- Settles O3, by the wire the packet is at. -/
theorem decodedIsWellFormed : Obligations.DecodedIsWellFormed := by
  rintro ⟨wire, bits⟩ i h
  rw [decode_fits (fits_of_decode_ok h)] at h
  cases wire with
  | cmd => cases h; exact decodeCommand_wellFormed _
  | frame => cases h; exact decodeFrame_wellFormed _
  | symbol => rcases decodeSymbol_ok_cases h with ⟨-, rfl⟩ | ⟨-, rfl⟩ <;> rfl
  | txWord => obtain ⟨hw, rfl⟩ := decodeTxWord_ok h; exact hw
  | edge | rst | txStep | txEnd | initBegin | initEnd => cases h; rfl

/-! ## Encoding what was decoded -/

theorem encode_decodeFrame (f : Frame) : encode (decodeFrame f) = framePacket f := by
  rw [decodeFrame_eq_frameRow, encode_frameRow]

theorem encode_of_decodeSymbol {v : BitVec 2} {i : Instr} (h : decodeSymbol v = .ok i) :
    encode i = ⟨.symbol, v.setWidth 53⟩ := by
  rcases decodeSymbol_ok_cases h with ⟨rfl, rfl⟩ | ⟨rfl, rfl⟩ <;> rfl

/-- The word at the wire of `EDGE` is its one bit. -/
theorem encode_edge_ofBool {w : CmdWord} (h : w.toNat < 2) :
    encode (.edge (Level.ofBool (w.getLsbD 0))) = ⟨.edge, w⟩ := by
  obtain h0 | h1 : w.toNat = 0 ∨ w.toNat = 1 := by omega
  · obtain rfl : w = 0 := BitVec.eq_of_toNat_eq h0
    rfl
  · obtain rfl : w = 1 := BitVec.eq_of_toNat_eq h1
    rfl

/-- A packet that fits its wire is the word of its wire's width. -/
theorem packet_setWidth_back {k : Wire} {w : CmdWord} (h : w.toNat < 2 ^ k.width) :
    (⟨k, (w.setWidth k.width).setWidth 53⟩ : Packet) = ⟨k, w⟩ := congrArg (Packet.mk k) (setWidth_back w h)

/-- Settles O4, by the wire: the packet fits it, so the format's own bits are all the packet has. -/
theorem encodeOfDecodeOnTheLine : Obligations.EncodeOfDecodeOnTheLine := by
  rintro ⟨wire, bits⟩ i hwire h
  have hfits := fits_of_decode_ok h
  rw [decode_fits hfits] at h
  cases wire with
  | cmd => exact absurd rfl hwire
  | frame => cases h; exact (encode_decodeFrame _).trans (packet_setWidth_back hfits)
  | symbol => exact (encode_of_decodeSymbol h).trans (packet_setWidth_back hfits)
  | txWord => obtain ⟨-, rfl⟩ := decodeTxWord_ok h; exact packet_setWidth_back hfits
  | edge => cases h; exact encode_edge_ofBool hfits
  | rst | txStep | txEnd | initBegin | initEnd =>
    obtain rfl : bits = 0 := BitVec.eq_of_toNat_eq (Nat.lt_one_iff.1 hfits)
    cases h
    rfl

end Sys2Proof.Machine
end
